-- ==== Sys2Proof/Word.lean ====
section
/-! DEFINITION. The words of the hardware and the names of its closed enumerations. -/

namespace Sys2Proof

/-- The content of one register: 8 bits (00_scope.md R3). Bit `i` belongs to pin `i`; bit 0 is the least significant (R5). -/
abbrev Byte := BitVec 8

/-- One command word: 32 parallel bits (30_encoding.md R50, 20_memory.md R35). -/
abbrev CmdWord := BitVec 32

/-- The number of pins of a port, equal to the register width (00_scope.md R3). -/
abbrev pinsPerPort : Nat := 8

/-- A pin direction, a two-valued enumeration (00_scope.md R6). -/
inductive Direction where
  | input
  | output
deriving DecidableEq, Repr

/-- A logic level, a two-valued enumeration (00_scope.md R6). -/
inductive Level where
  | low
  | high
deriving DecidableEq, Repr

/-- The kind of a register of a port's triple (20_memory.md R30). `inp` is the input register `IN`. -/
inductive RegKind where
  | dir
  | out
  | inp
deriving DecidableEq, Repr

/-- The kinds `RegWrite` may be called with: `DIR` and `OUT`, never `IN` (20_memory.md R34). -/
inductive StoredKind where
  | dir
  | out
deriving DecidableEq, Repr

/-- A stored register among the register kinds. -/
def StoredKind.toKind : StoredKind → RegKind
  | .dir => .dir
  | .out => .out

/-- How a pin's level relates to the registers (10_state.md R17). -/
inductive PinModel where
  | loopback
  | free
deriving DecidableEq, Repr

/-- The port direction "all input" (00_scope.md R7, named by 30_encoding.md R59). -/
abbrev allInput : Byte := 0x00#8

/-- The port direction "all output" (00_scope.md R7, named by 30_encoding.md R59). -/
abbrev allOutput : Byte := 0xFF#8

end Sys2Proof
end

