-- ==== Sys2Proof/Syntax.lean ====
section
/-! DEFINITION. The six operations of the block, one constructor per row of spec/opcode_table.json. -/

namespace Sys2Proof

/-- One decoded operation with the operands it uses (30_encoding.md R51, R53, R57). The identifiers are unsigned bytes (R52);
an identifier out of range is an operand case of a legal command, not an ill-formed one (R55). -/
inductive Instr where
  /-- 41_direction.md R75 -/
  | setupPinDirection (port pin : Byte) (direction : Direction)
  /-- 41_direction.md R76 -/
  | setupPortDirection (port directionMask : Byte)
  /-- 42_read.md R80 -/
  | readPin (port pin : Byte)
  /-- 42_read.md R81 -/
  | readPort (port : Byte)
  /-- 43_write.md R85 -/
  | writePin (port pin : Byte) (level : Level)
  /-- 43_write.md R86 -/
  | writePort (port value : Byte)
deriving DecidableEq, Repr

end Sys2Proof
end

