-- ==== Sys2Proof/WellFormed.lean ====
section
/-! DEFINITION. Which written-out calls fit the command word. An `Instr` holds bytes and enumerations, so every `Instr` is an
instruction of the block; what can be ill-formed is a call as a program's author writes it, with integer operands (30_encoding.md R58). -/

namespace Sys2Proof

/-- A call in the document's syntax, its integers as written (30_encoding.md R58). -/
inductive Call where
  | setupPinDirection (port pin : Nat) (direction : Direction)
  | setupPortDirection (port directionMask : Nat)
  | readPin (port pin : Nat)
  | readPort (port : Nat)
  | writePin (port pin : Nat) (level : Level)
  | writePort (port value : Nat)
deriving DecidableEq, Repr

/-- An integer fits its 8-bit field; above 255 is an assembly error (30_encoding.md R58). -/
def fitsField (n : Nat) : Bool := decide (n ≤ 255)

/-- Every integer of the call fits its field. Identifiers out of range (`port ≥ NUM_PORTS`, `pin ≥ 8`) are legal (R58). -/
def Call.wellFormed : Call → Bool
  | .setupPinDirection port pin _ => fitsField port && fitsField pin
  | .setupPortDirection port mask => fitsField port && fitsField mask
  | .readPin port pin => fitsField port && fitsField pin
  | .readPort port => fitsField port
  | .writePin port pin _ => fitsField port && fitsField pin
  | .writePort port value => fitsField port && fitsField value

/-- The operation a call stands for, where every integer fits. -/
def Call.toInstr (c : Call) : Option Instr :=
  if c.wellFormed then
    some <| match c with
      | .setupPinDirection port pin d => .setupPinDirection (BitVec.ofNat 8 port) (BitVec.ofNat 8 pin) d
      | .setupPortDirection port mask => .setupPortDirection (BitVec.ofNat 8 port) (BitVec.ofNat 8 mask)
      | .readPin port pin => .readPin (BitVec.ofNat 8 port) (BitVec.ofNat 8 pin)
      | .readPort port => .readPort (BitVec.ofNat 8 port)
      | .writePin port pin l => .writePin (BitVec.ofNat 8 port) (BitVec.ofNat 8 pin) l
      | .writePort port value => .writePort (BitVec.ofNat 8 port) (BitVec.ofNat 8 value)
  else none

/-- The call that writes an operation out. -/
def Instr.toCall : Instr → Call
  | .setupPinDirection port pin d => .setupPinDirection port.toNat pin.toNat d
  | .setupPortDirection port mask => .setupPortDirection port.toNat mask.toNat
  | .readPin port pin => .readPin port.toNat pin.toNat
  | .readPort port => .readPort port.toNat
  | .writePin port pin l => .writePin port.toNat pin.toNat l
  | .writePort port value => .writePort port.toNat value.toNat

end Sys2Proof
end

