-- ==== Sys2Proof/Decode.lean ====
section
/-! DEFINITION. The command word: its fields, the opcode table, the total decoder, the canonical encoder (30_encoding.md). -/

namespace Sys2Proof

/-- The bit of a direction: `Input = 0`, `Output = 1` (00_scope.md R6). -/
def Direction.toBit : Direction → Bool
  | .input => false
  | .output => true

/-- The direction of a bit (00_scope.md R6). -/
def Direction.ofBit (b : Bool) : Direction := if b then .output else .input

/-- The bit of a level: `Low = 0`, `High = 1` (00_scope.md R6). -/
def Level.toBit : Level → Bool
  | .low => false
  | .high => true

/-- The level of a bit (00_scope.md R6). -/
def Level.ofBit (b : Bool) : Level := if b then .high else .low

/-- `OP = cmd[31:24]` (30_encoding.md R51). -/
def opField (cmd : CmdWord) : Byte := cmd.extractLsb' 24 8

/-- `PORT = cmd[23:16]` (30_encoding.md R51). -/
def portField (cmd : CmdWord) : Byte := cmd.extractLsb' 16 8

/-- `PIN = cmd[15:8]` (30_encoding.md R51). -/
def pinField (cmd : CmdWord) : Byte := cmd.extractLsb' 8 8

/-- `DATA = cmd[7:0]` (30_encoding.md R51). -/
def dataField (cmd : CmdWord) : Byte := cmd.extractLsb' 0 8

/-- `DATA[0]`, the direction or the level of a single-bit write (30_encoding.md R52). -/
def dataBit (cmd : CmdWord) : Bool := (dataField cmd).getLsbD 0

/-- The command word with these four fields (30_encoding.md R51). -/
def packCmd (op port pin data : Byte) : CmdWord := op ++ port ++ pin ++ data

/-- What a command word stands for: an operation, or a reserved opcode (30_encoding.md R57). -/
inductive Decoded where
  | instr (i : Instr)
  | reserved (op : Byte)
deriving DecidableEq, Repr

/-- `Decode` of 30_encoding.md R57: total, looks at the word alone; a reserved opcode is answered by name with its opcode (R55). -/
def decode (cmd : CmdWord) : Decoded :=
  match (opField cmd).toNat with
  | 0x00 => .instr (.setupPinDirection (portField cmd) (pinField cmd) (Direction.ofBit (dataBit cmd)))
  | 0x01 => .instr (.setupPortDirection (portField cmd) (dataField cmd))
  | 0x02 => .instr (.readPin (portField cmd) (pinField cmd))
  | 0x03 => .instr (.readPort (portField cmd))
  | 0x04 => .instr (.writePin (portField cmd) (pinField cmd) (Level.ofBit (dataBit cmd)))
  | 0x05 => .instr (.writePort (portField cmd) (dataField cmd))
  | _ => .reserved (opField cmd)

/-- `DATA` of a single-bit write: the bit in `DATA[0]`, zeros in the ignored `DATA[7:1]` (30_encoding.md R58, R60). -/
def bitData (b : Bool) : Byte := if b then 0x01#8 else 0x00#8

/-- The opcode of an operation (30_encoding.md R53). -/
def Instr.opcode : Instr → Byte
  | .setupPinDirection .. => 0x00#8
  | .setupPortDirection .. => 0x01#8
  | .readPin .. => 0x02#8
  | .readPort .. => 0x03#8
  | .writePin .. => 0x04#8
  | .writePort .. => 0x05#8

/-- The canonical encoding: the used fields as given, zero in every ignored field (30_encoding.md R58, R60). -/
def encode : Instr → CmdWord
  | .setupPinDirection port pin d => packCmd 0x00#8 port pin (bitData d.toBit)
  | .setupPortDirection port mask => packCmd 0x01#8 port 0x00#8 mask
  | .readPin port pin => packCmd 0x02#8 port pin 0x00#8
  | .readPort port => packCmd 0x03#8 port 0x00#8 0x00#8
  | .writePin port pin l => packCmd 0x04#8 port pin (bitData l.toBit)
  | .writePort port value => packCmd 0x05#8 port 0x00#8 value

/-- The word of a decoded command; listings use `0x06000000` for a reserved one, which has no canonical word (30_encoding.md R60). -/
def Decoded.canonicalWord : Decoded → CmdWord
  | .instr i => encode i
  | .reserved _ => 0x06000000#32

/-- The bits of the word an operation uses; the others are ignored (30_encoding.md R53 and R54, the pattern strings). -/
def Instr.usedBits : Instr → CmdWord
  | .setupPinDirection .. => 0xFFFFFF01#32
  | .setupPortDirection .. => 0xFFFF00FF#32
  | .readPin .. => 0xFFFFFF00#32
  | .readPort .. => 0xFFFF0000#32
  | .writePin .. => 0xFFFFFF01#32
  | .writePort .. => 0xFFFF00FF#32

/-- One row of the opcode table: a word `w` is the instruction when `w & mask = match` (30_encoding.md R53). -/
structure OpcodeRow where
  mnemonic : String
  matchBits : CmdWord
  mask : CmdWord
deriving DecidableEq, Repr

/-- The opcode table of 30_encoding.md R53. -/
def opcodeTable : List OpcodeRow :=
  [ ⟨"setupPinDirection", 0x00000000#32, 0xFF000000#32⟩,
    ⟨"setupPortDirection", 0x01000000#32, 0xFF000000#32⟩,
    ⟨"readPin", 0x02000000#32, 0xFF000000#32⟩,
    ⟨"readPort", 0x03000000#32, 0xFF000000#32⟩,
    ⟨"writePin", 0x04000000#32, 0xFF000000#32⟩,
    ⟨"writePort", 0x05000000#32, 0xFF000000#32⟩ ]

/-- The row's test of a word. -/
def OpcodeRow.hits (r : OpcodeRow) (w : CmdWord) : Bool := (w &&& r.mask) == r.matchBits

/-- The mnemonic of an operation, the document's operation name (30_encoding.md R58). -/
def Instr.mnemonic : Instr → String
  | .setupPinDirection .. => "setupPinDirection"
  | .setupPortDirection .. => "setupPortDirection"
  | .readPin .. => "readPin"
  | .readPort .. => "readPort"
  | .writePin .. => "writePin"
  | .writePort .. => "writePort"

/-- The command word whose low `nbits` bits are those of `w` and whose other bits are zero. -/
def tableWord (nbits w : Nat) : CmdWord := BitVec.ofNat 32 (w % 2 ^ nbits)

/-- The operation the decoder reads from a word numbered as spec/opcode_table.json numbers it: bit 0 is `cmd[0]`. The word is
32 parallel bits and has no byte order (20_memory.md R35). -/
def decodeTableWord (nbits w : Nat) : Option Instr :=
  match decode (tableWord nbits w) with
  | .instr i => some i
  | .reserved _ => none

end Sys2Proof
end

