-- ==== Sys2Proof/Config.lean ====
section
/-! DEFINITION. What is fixed for one machine: the model arguments of 00_scope.md section 5, and the values the spec leaves open. -/

namespace Sys2Proof

/-- The model arguments that shape the state at power-on. Each field's default is the spec's default
(00_scope.md R3 and section 5; 92_eei_decisions.md, "Parameters left OPEN").
`HAS_PULLUP` and `REG_ADDR` have no default and stand below as constants without a body. -/
structure Config where
  /-- `NUM_PORTS`, legal range 1 to 256 (R3). -/
  numPorts : Nat := 4
  /-- `N_REQ`, at least 1 (20_memory.md R40). -/
  nReq : Nat := 1
  /-- `PIN_MODEL` (10_state.md R17). -/
  pinModel : PinModel := .loopback
  /-- `RMW_ATOMIC` (20_memory.md R41). -/
  rmwAtomic : Bool := false
  /-- `RESET_DIR[p]` (10_state.md R23). -/
  resetDir : Nat → Byte := fun _ => 0x00#8
  /-- `RESET_OUT[p]` (10_state.md R23). -/
  resetOut : Nat → Byte := fun _ => 0x00#8

/-- The reference configuration: every argument at the spec's default. DESIGN CHOICE (log 5, 6, 8): `State.reset` is this one. -/
def Config.reference : Config := {}

/-- `HAS_PULLUP`, open: whether the output bit of an input pin enables a pull-up (10_state.md R19, D12).
A free constant (log 7): safe, no proof can see its value. -/
opaque Config.hasPullup : Bool

/-- `EXT[p]` at an instant where nothing is known of what the outside applies to port `p`: the spec's `draw`
(10_state.md R17, 20_memory.md R42). A free value for each port and instant (log 3): safe. -/
opaque Config.extDraw (port instant : Nat) : Byte

/-- Which of several waiting requesters acts at an instant for which the schedule says nothing: any order is possible
(20_memory.md R41, 60_exceptions.md R95). A free value for each instant (log 9): safe. -/
opaque Config.turnDraw (instant : Nat) : Nat

/-- `REG_ADDR(p, k)`, open and read by no rule (20_memory.md R39, D21). A free constant (log 17): safe. -/
opaque Config.regAddr (port : Nat) (kind : RegKind) : Nat

end Sys2Proof
end

