-- ==== Sys2Proof/Machine/State.lean ====
section
/-! DEFINITION. The state of a run: the block's registers, and the requesters, the environment and the order of their turns as
plain data; the reasons a step can stop; power-on. -/

namespace Sys2Proof.Machine

/-- What the environment applies to the pins of a port: `EXT[p]` of 10_state.md R17.
`draw`: nothing is known of it, and every instant has a free value of its own; `held v`: the level `v` until the environment
changes it. The two are the two equal forms 10_state.md section 6 names: an oracle answer at each read, or a byte of the record
(log 3). -/
inductive ExtLevel where
  | draw
  | held (v : Byte)
deriving DecidableEq, Repr

/-- The register triple of one port (10_state.md R11): `DIR[p]` and `OUT[p]` are stored, `IN[p]` is read through `EXT[p]` (R14, R17). -/
structure PortRegs where
  /-- `DIR[p]`, 10_state.md R12. -/
  dir : Byte
  /-- `OUT[p]`, 10_state.md R13. -/
  out : Byte
  /-- `EXT[p]`, owned by the environment, 10_state.md R17. -/
  ext : ExtLevel
deriving DecidableEq, Repr

/-- The response of a command: nothing, or one byte (30_encoding.md R56). It carries no status. -/
inductive Response where
  | none
  | byte (v : Byte)
deriving DecidableEq, Repr

/-- A single-bit operation between its read and its write (20_memory.md R37): the register and bit it addresses, the bit it
will store, and `t`, the byte it read, which may be stale by the time of the write (R41). -/
structure InFlight where
  kind : StoredKind
  port : Byte
  pin : Byte
  value : Bool
  t : Byte
deriving DecidableEq, Repr

/-- A requester: a finite list of command words, an index that starts at 0 (10_state.md R21), the half-done operation it is in,
and the responses it got, oldest first (70_reset_and_hazards.md R114). -/
structure Requester where
  program : List CmdWord
  index : Nat
  inFlight : Option InFlight
  responses : List Response
deriving DecidableEq, Repr

/-- One turn of a run (20_memory.md section 6). -/
inductive Turn where
  /-- Requester `r` performs its next command, or its next access where single-bit operations are split (R41). -/
  | requester (r : Nat)
  /-- The environment replaces `EXT[p]` (R42). -/
  | environment (p : Nat) (e : ExtLevel)
  /-- Something other than the six operations reaches for a register: a read, or a write of a byte
  (93_implementation_defined.md U4). -/
  | directAccess (p : Nat) (k : RegKind) (write : Option Byte)
deriving DecidableEq, Repr

/-- The whole state. `NUM_PORTS` is the length of `ports`, `N_REQ` the length of `requesters`. -/
structure State where
  /-- The register triples, indexed by the port identifier (10_state.md R11, 20_memory.md R31). -/
  ports : List PortRegs
  /-- `PIN_MODEL` (10_state.md R17); no step changes it. -/
  pinModel : PinModel
  /-- `RMW_ATOMIC` (20_memory.md R41); no step changes it. -/
  rmwAtomic : Bool
  /-- The requesters (20_memory.md R40, R41). -/
  requesters : List Requester
  /-- The turns to come, the next one first; where it is empty the order is free (log 9). -/
  schedule : List Turn
  /-- The response of the latest command (30_encoding.md R56). -/
  rsp : Response
  /-- The model's own counter: the instant that free values are drawn for (log 4). -/
  instant : Nat
deriving DecidableEq, Repr

/-- The block raises no exception, faults never and is never stuck (60_exceptions.md R90, R100): there is no fault. -/
inductive Fault where
deriving DecidableEq, Repr

/-- Why a step has no meaning in this model: the model's own boundary only (60_exceptions.md R100). -/
inductive Refusal where
  /-- Raised by an arm of `exec` whose instruction has no meaning yet; no arm is left so. Safe. -/
  | notModelled (mnemonic : String)
  /-- Raised by `step` on a state whose `NUM_PORTS` is outside 1..256 or that has no requester
  (60_exceptions.md R100, 00_scope.md R3): no such hardware exists. Safe. -/
  | parameterOutOfRange
  /-- Raised by `step` when something other than the six operations reaches for a register
  (60_exceptions.md R100, 93_implementation_defined.md U4 "refuse"). Safe. -/
  | accessOutsideOperations
deriving DecidableEq, Repr

/-- A requester at the start of a command list (10_state.md R21). -/
def Requester.fresh (program : List CmdWord) : Requester :=
  { program := program, index := 0, inFlight := none, responses := [] }

/-- The state at power-on under the arguments `c` (10_state.md R23, 70_reset_and_hazards.md R105): every port's `DIR` and `OUT` at its
reset argument, `EXT` a draw, no command list loaded (log 2). -/
def State.powerOn (c : Config) : State :=
  { ports := (List.range c.numPorts).map fun p => { dir := c.resetDir p, out := c.resetOut p, ext := .draw }
    pinModel := c.pinModel
    rmwAtomic := c.rmwAtomic
    requesters := List.replicate c.nReq (Requester.fresh [])
    schedule := []
    rsp := .none
    instant := 0 }

/-- The machine right after reset, in the reference configuration (log 5, 6, 8). -/
def State.reset : State := State.powerOn Config.reference

end Sys2Proof.Machine
end

