-- ==== Sys2Proof/Machine/Flags.lean ====
section
/-! DEFINITION. Flags. The block has no status flag, condition code, error bit, sticky fault bit or busy bit (10_state.md R20), so there
is no flag computation. All that a command signals is its response (30_encoding.md R56), and the response of a read whose
identifiers are invalid is this file's one definition. -/

namespace Sys2Proof.Machine

/-- The sentinel of a read with an invalid identifier: `byte(0x00)`, the same value as a low pin or an all-low port (42_read.md R82). -/
def sentinel : Response := .byte 0x00#8

end Sys2Proof.Machine
end

