-- ==== Sys2Proof/Machine/Operands.lean ====
section
/-! DEFINITION. Operand forms: the validity of identifiers, the bit selected by a pin, and the bit logic of 40_operation_common.md R68. -/

namespace Sys2Proof.Machine

/-- `NUM_PORTS` (00_scope.md R3). -/
def State.numPorts (s : State) : Nat := s.ports.length

/-- `ValidPort(port) := port <u NUM_PORTS` (00_scope.md R4). -/
def validPort (s : State) (port : Byte) : Bool := decide (port.toNat < s.numPorts)

/-- `ValidPin(pin) := pin <u 8` (00_scope.md R4). -/
def validPin (pin : Byte) : Bool := decide (pin.toNat < pinsPerPort)

/-- The validity predicate of the single-pin operations (40_operation_common.md R66); the whole-port ones use `validPort` alone. -/
def validPortPin (s : State) (port pin : Byte) : Bool := validPort s port && validPin pin

/-- The one-hot mask of a pin, `1 << pin` (20_memory.md R32); formed only for a valid pin. -/
def pinMask (i : Nat) : Byte := 1#8 <<< i

/-- `setbit(v, i) = v | (1 << i)` (00_scope.md section 6). -/
def setBit (v : Byte) (i : Nat) : Byte := v ||| pinMask i

/-- `clrbit(v, i) = v & ~(1 << i)` (00_scope.md section 6). -/
def clrBit (v : Byte) (i : Nat) : Byte := v &&& ~~~ pinMask i

/-- `getbit(v, i) = zext_8((v >> i) & 0x01)` (00_scope.md section 6). -/
def getBit (v : Byte) (i : Nat) : Byte := (v >>> i) &&& 0x01#8

/-- The byte a single-bit write stores: bit `i` set or cleared, the other seven kept (41_direction.md R75, 43_write.md R85). -/
def putBit (v : Byte) (i : Nat) (b : Bool) : Byte := if b then setBit v i else clrBit v i

/-- The byte whose bit `i` is `f i`, for `i` in 0..7. -/
def byteOfBits (f : Nat → Bool) : Byte :=
  BitVec.ofBoolListLE [f 0, f 1, f 2, f 3, f 4, f 5, f 6, f 7]

end Sys2Proof.Machine
end

