-- ==== Sys2Proof/Machine/Ops.lean ====
section
/-! DEFINITION. The operations the instructions share: pins and pads, the access primitives, the response, and the two halves of a
single-bit write. The block takes no exception and returns from none (60_exceptions.md R96, R97), so no operation does either. -/

namespace Sys2Proof.Machine

/-- The register numbering `CSRNUM(p, k) = 4 * p + k`, a label that no command carries (10_state.md R15). -/
def csrNum (p : Nat) : RegKind → Nat
  | .dir => 4 * p
  | .out => 4 * p + 1
  | .inp => 4 * p + 2

/-- The register a number names: kind 3 and a port out of range name nothing (10_state.md R15). -/
def csrOf (numPorts n : Nat) : Option (Nat × RegKind) :=
  if n / 4 < numPorts then
    match n % 4 with
    | 0 => some (n / 4, .dir)
    | 1 => some (n / 4, .out)
    | 2 => some (n / 4, .inp)
    | _ => none
  else none

/-- The triple the dispatcher selects for port `p` (20_memory.md R31). It is consulted for `p < NUM_PORTS` only; the triple named here
for any other `p` is never looked at by an operation. -/
def State.port (s : State) (p : Nat) : PortRegs := s.ports.getD p { dir := 0x00#8, out := 0x00#8, ext := .draw }

/-- `DIR[p]` (10_state.md R12). -/
def State.dir (s : State) (p : Nat) : Byte := (s.port p).dir

/-- `OUT[p]` (10_state.md R13). -/
def State.out (s : State) (p : Nat) : Byte := (s.port p).out

/-- `EXT[p]` at this instant: the level the environment holds, or the instant's free value (10_state.md R17, log 3). -/
def State.extNow (s : State) (p : Nat) : Byte :=
  match (s.port p).ext with
  | .held v => v
  | .draw => Config.extDraw p s.instant

/-- `LEVEL[p]` bit by bit from `DIR[p]`, `OUT[p]` and `EXT[p]` (10_state.md R17). -/
def levelOf (model : PinModel) (dir out ext : Byte) : Byte :=
  byteOfBits fun i =>
    if dir.getLsbD i && decide (model = .loopback) then out.getLsbD i else ext.getLsbD i

/-- `LEVEL[p]` (10_state.md R17), with no sampling delay (R17, 70_reset_and_hazards.md R112). -/
def State.level (s : State) (p : Nat) : Byte := levelOf s.pinModel (s.dir p) (s.out p) (s.extNow p)

/-- `PADOE[p] = DIR[p]` (10_state.md R18). -/
def State.padOe (s : State) (p : Nat) : Byte := s.dir p

/-- `PADOUT[p] = OUT[p]` (10_state.md R18). -/
def State.padOut (s : State) (p : Nat) : Byte := s.out p

/-- The pull-up enables of a port (10_state.md R19). -/
def pullUps (hasPullup : Bool) (dir out : Byte) : Byte := if hasPullup then ~~~ dir &&& out else 0x00#8

/-- `PADPU[p]` (10_state.md R19), for whichever `HAS_PULLUP` the hardware has (log 7). -/
def State.padPu (s : State) (p : Nat) : Byte := pullUps Config.hasPullup (s.dir p) (s.out p)

/-- `RegRead(p, k)` (20_memory.md R33): the byte at this instant; it changes nothing (R38). -/
def State.regRead (s : State) (p : Nat) : RegKind → Byte
  | .dir => s.dir p
  | .out => s.out p
  | .inp => s.level p

/-- The triple with its stored register `k` replaced. -/
def PortRegs.put (r : PortRegs) (k : StoredKind) (v : Byte) : PortRegs :=
  match k with
  | .dir => { r with dir := v }
  | .out => { r with out := v }

/-- `RegWrite(p, k, v)` (20_memory.md R34): replaces all 8 bits of one stored register and changes nothing else. -/
def State.regWrite (s : State) (p : Nat) (k : StoredKind) (v : Byte) : State :=
  { s with ports := s.ports.modify p fun r => r.put k v }

/-- The environment replaces `EXT[p]`, never `DIR` or `OUT` (20_memory.md R42); a port that does not exist has no pins. -/
def State.setExt (s : State) (p : Nat) (e : ExtLevel) : State :=
  { s with ports := s.ports.modify p fun r => { r with ext := e } }

/-- The model's counter moves on (log 4). -/
def State.tick (s : State) : State := { s with instant := s.instant + 1 }

/-- `rsp <- r`, the end of a command (30_encoding.md R56). -/
def State.respond (s : State) (r : Response) : State := { s with rsp := r, instant := s.instant + 1 }

/-- The read half of a single-bit write: `t <- RegRead(port, k)` (20_memory.md R37). -/
def State.beginBitWrite (s : State) (k : StoredKind) (port pin : Byte) (b : Bool) : InFlight :=
  { kind := k, port := port, pin := pin, value := b, t := s.regRead port.toNat k.toKind }

/-- The write half: `RegWrite(port, k, setbit(t, pin))` or `RegWrite(port, k, clrbit(t, pin))`, then no response (20_memory.md R37). -/
def State.finishBitWrite (s : State) (f : InFlight) : State :=
  (s.regWrite f.port.toNat f.kind (putBit f.t f.pin.toNat f.value)).respond .none

/-- A single-bit write as one step (20_memory.md R40): both halves with nothing between them, or nothing at all where an identifier is
invalid (40_operation_common.md R66, R67). -/
def State.bitWrite (s : State) (k : StoredKind) (port pin : Byte) (b : Bool) : State :=
  if validPortPin s port pin then s.finishBitWrite (s.beginBitWrite k port pin b) else s.respond .none

/-- A byte-wide write: one full replace without a read, or nothing where the port is invalid (41_direction.md R76, 43_write.md R86). -/
def State.byteWrite (s : State) (k : StoredKind) (port v : Byte) : State :=
  if validPort s port then (s.regWrite port.toNat k v).respond .none else s.respond .none

/-- The response of `readPin` (42_read.md R80). -/
def State.pinResponse (s : State) (port pin : Byte) : Response :=
  if validPortPin s port pin then .byte (getBit (s.regRead port.toNat .inp) pin.toNat) else sentinel

/-- The response of `readPort` (42_read.md R81). -/
def State.portResponse (s : State) (port : Byte) : Response :=
  if validPort s port then .byte (s.regRead port.toNat .inp) else sentinel

end Sys2Proof.Machine
end

