-- ==== Sys2Proof/Machine/Direction.lean ====
section
/-! DEFINITION. The direction operations (41_direction.md). -/

namespace Sys2Proof.Machine

/-- `setupPinDirection(port, pin, direction)`: one bit of `DIR[port]` (41_direction.md R75). -/
def execSetupPinDirection (port pin : Byte) (direction : Direction) (s : State) : Host.Outcome State Fault Refusal :=
  .next (s.bitWrite .dir port pin direction.toBit)

/-- `setupPortDirection(port, directionMask)`: the whole of `DIR[port]` (41_direction.md R76). -/
def execSetupPortDirection (port directionMask : Byte) (s : State) : Host.Outcome State Fault Refusal :=
  .next (s.byteWrite .dir port directionMask)

end Sys2Proof.Machine
end

