-- ==== Sys2Proof/Machine/Read.lean ====
section
/-! DEFINITION. The read operations (42_read.md). -/

namespace Sys2Proof.Machine

/-- `readPin(port, pin)`: one bit of `IN[port]`, right-shifted to 0 or 1 (42_read.md R80). -/
def execReadPin (port pin : Byte) (s : State) : Host.Outcome State Fault Refusal :=
  .next (s.respond (s.pinResponse port pin))

/-- `readPort(port)`: the byte of `IN[port]` (42_read.md R81). -/
def execReadPort (port : Byte) (s : State) : Host.Outcome State Fault Refusal :=
  .next (s.respond (s.portResponse port))

end Sys2Proof.Machine
end

