-- ==== Sys2Proof/Machine/Write.lean ====
section
/-! DEFINITION. The write operations (43_write.md). They do not look at the direction of the pins they address (R87). -/

namespace Sys2Proof.Machine

/-- `writePin(port, pin, level)`: one bit of `OUT[port]` (43_write.md R85). -/
def execWritePin (port pin : Byte) (level : Level) (s : State) : Host.Outcome State Fault Refusal :=
  .next (s.bitWrite .out port pin level.toBit)

/-- `writePort(port, value)`: the whole of `OUT[port]` (43_write.md R86). -/
def execWritePort (port value : Byte) (s : State) : Host.Outcome State Fault Refusal :=
  .next (s.byteWrite .out port value)

end Sys2Proof.Machine
end

