-- ==== Sys2Proof/Machine/Dispatch.lean ====
section
/-! DEFINITION. The meaning of every operation, one arm per constructor (40_operation_common.md R65). A command here is one
indivisible step; Machine/Agents.lean splits it where 20_memory.md R41 asks for that. -/

namespace Sys2Proof.Machine

def exec (i : Instr) (s : State) : Host.Outcome State Fault Refusal :=
  match i with
  | .setupPinDirection port pin direction => Sys2Proof.Machine.execSetupPinDirection port pin direction s
  | .setupPortDirection port directionMask => Sys2Proof.Machine.execSetupPortDirection port directionMask s
  | .readPin port pin => Sys2Proof.Machine.execReadPin port pin s
  | .readPort port => Sys2Proof.Machine.execReadPort port s
  | .writePin port pin level => Sys2Proof.Machine.execWritePin port pin level s
  | .writePort port value => Sys2Proof.Machine.execWritePort port value s

end Sys2Proof.Machine
end

