-- ==== Sys2Proof/Machine/Agents.lean ====
section
/-! DEFINITION. The turns of a run: how a requester presents its next command word and gets its response, how a single-bit operation
is split when several requesters act (20_memory.md R41), how the environment moves (R42), and whose turn it is. -/

namespace Sys2Proof.Machine

/-- Carry a state change through an outcome. -/
def mapNext (f : State → State) : Host.Outcome State Fault Refusal → Host.Outcome State Fault Refusal
  | .next s => .next (f s)
  | .fault r => .fault r
  | .refused r => .refused r

/-- `N_REQ` (20_memory.md R40). -/
abbrev State.numRequesters (s : State) : Nat := s.requesters.length

/-- The parameters are in range (00_scope.md R3, 60_exceptions.md R100). -/
def State.legal (s : State) : Bool :=
  decide (1 ≤ s.numPorts) && decide (s.numPorts ≤ 256) && decide (1 ≤ s.numRequesters)

/-- A single-bit operation is two steps: `N_REQ > 1` and `RMW_ATOMIC = false` (40_operation_common.md R72, 20_memory.md R41). -/
def State.splits (s : State) : Bool := !s.rmwAtomic && decide (1 < s.numRequesters)

/-- The register, port, pin and bit of a single-bit write; the other operations are one access each (20_memory.md R37). -/
def bitTarget : Instr → Option (StoredKind × Byte × Byte × Bool)
  | .setupPinDirection port pin direction => some (.dir, port, pin, direction.toBit)
  | .setupPortDirection _ _ => none
  | .readPin _ _ => none
  | .readPort _ => none
  | .writePin port pin level => some (.out, port, pin, level.toBit)
  | .writePort _ _ => none

/-- A reserved opcode: no register access, no response value, nothing recorded (30_encoding.md R55, 60_exceptions.md R93). -/
def execReserved (s : State) : Host.Outcome State Fault Refusal := .next (s.respond .none)

/-- Execute one command word as one step: decode it, then the operation it stands for (40_operation_common.md R65). -/
def runWord (cmd : CmdWord) (s : State) : Host.Outcome State Fault Refusal :=
  match decode cmd with
  | .instr i => exec i s
  | .reserved _ => execReserved s

/-- The read half with which a command word starts, where the word is a single-bit write with valid identifiers and such
operations are split. With an invalid identifier there is no access to split (20_memory.md R37). -/
def State.splitStart (s : State) (cmd : CmdWord) : Option InFlight :=
  match decode cmd with
  | .instr i =>
    match bitTarget i with
    | some (k, port, pin, b) =>
      if s.splits && validPortPin s port pin then some (s.beginBitWrite k port pin b) else none
    | none => none
  | .reserved _ => none

/-- Requester `r` as it is after the command it issued is done: the index advances by 1 (10_state.md R21) and the response joins the
requester's list (70_reset_and_hazards.md R114). -/
def State.complete (r : Nat) (s : State) : State :=
  { s with
    requesters := s.requesters.modify r fun q =>
      { q with index := q.index + 1, inFlight := none, responses := q.responses ++ [s.rsp] } }

/-- Requester `r` between the two accesses of a single-bit operation. -/
def State.hold (r : Nat) (f : InFlight) (s : State) : State :=
  { s with
    requesters := s.requesters.modify r fun q => { q with inFlight := some f }
    instant := s.instant + 1 }

/-- The command word a requester presents next: the one its index names (10_state.md R21). -/
def Requester.nextWord (q : Requester) : Option CmdWord := q.program[q.index]?

/-- The requester has not finished its list. -/
def Requester.busy (q : Requester) : Bool := q.inFlight.isSome || q.nextWord.isSome

/-- One turn of requester `r`: the write half it still owes, or its next command (or the read half of it), or nothing where its list
is exhausted (log 10). -/
def requesterTurn (r : Nat) (s : State) : Host.Outcome State Fault Refusal :=
  match s.requesters[r]? with
  | none => .next s
  | some q =>
    match q.inFlight with
    | some f => .next ((s.finishBitWrite f).complete r)
    | none =>
      match q.nextWord with
      | none => .next s
      | some cmd =>
        match s.splitStart cmd with
        | some f => .next (s.hold r f)
        | none => mapNext (State.complete r) (runWord cmd s)

/-- One turn of a run. -/
def takeTurn (t : Turn) (s : State) : Host.Outcome State Fault Refusal :=
  match t with
  | .requester r => requesterTurn r s
  | .environment p e => .next (s.setExt p e)
  | .directAccess _ _ _ => .refused .accessOutsideOperations

/-- The requesters that have not finished their lists. -/
def State.busyRequesters (s : State) : List Nat :=
  (List.range s.numRequesters).filter fun r => ((s.requesters[r]?).map Requester.busy).getD false

/-- Whose turn it is where the schedule says nothing: nobody's once every list is exhausted (70_reset_and_hazards.md R114), the one waiting
requester's, or a free choice among several (20_memory.md R41, log 9). -/
def State.freeTurn (s : State) : Option Turn :=
  match s.busyRequesters with
  | [] => none
  | [r] => some (.requester r)
  | rs => some (.requester (rs.getD (Config.turnDraw s.instant % rs.length) 0))

/-- The next turn, with the state in which it is taken. -/
def State.nextTurn (s : State) : Option Turn × State :=
  match s.schedule with
  | [] => (s.freeTurn, s)
  | t :: rest => (some t, { s with schedule := rest })

/-- One step of a run whose parameters are in range: the next turn, or nothing where the run has ended. -/
def advance (s : State) : Host.Outcome State Fault Refusal :=
  match s.nextTurn with
  | (none, s') => .next s'
  | (some t, s') => takeTurn t s'

/-- Every requester has exhausted its list: the run has ended (70_reset_and_hazards.md R114). -/
def State.ended (s : State) : Bool := s.busyRequesters.isEmpty

/-- A run is loaded: each requester gets a command list and starts at its beginning (70_reset_and_hazards.md R114), the turns to come
are given, and everything else stays. -/
def State.load (s : State) (programs : List (List CmdWord)) (schedule : List Turn) : State :=
  { s with requesters := programs.map Requester.fresh, schedule := schedule }

/-- The requester as it presents the word `cmd` next and has no half-done operation. -/
def Requester.present (q : Requester) (cmd : CmdWord) : Requester :=
  { q with
    program := q.program.take q.index ++ cmd :: q.program.drop (q.index + 1)
    index := min q.index q.program.length
    inFlight := none }

/-- What is observable of a run (70_reset_and_hazards.md R114): the responses per requester, the final registers, the pad outputs. -/
structure Observation where
  responses : List (List Response)
  dir : List Byte
  out : List Byte
  padOe : List Byte
  padOut : List Byte
  padPu : List Byte
deriving DecidableEq, Repr

/-- The observation of a state. -/
def State.observe (s : State) : Observation :=
  { responses := s.requesters.map Requester.responses
    dir := (List.range s.numPorts).map s.dir
    out := (List.range s.numPorts).map s.out
    padOe := (List.range s.numPorts).map s.padOe
    padOut := (List.range s.numPorts).map s.padOut
    padPu := (List.range s.numPorts).map s.padPu }

end Sys2Proof.Machine
end

