-- ==== Sys2Proof/Machine/Step.lean ====
section
/-! DEFINITION. One step of the machine, and the placing of a command word for the next step. -/

namespace Sys2Proof.Machine

/-- One step: one turn of the run (Machine/Agents.lean). A state whose parameters are out of range is refused (60_exceptions.md R100). -/
def step (s : State) : Host.Outcome State Fault Refusal :=
  if s.legal then advance s else .refused .parameterOutOfRange

/-- Requester 0 presents the given command word next, and has the next turn (log 2). The turn is put before the schedule, so that after
the step the schedule is what it was. -/
def State.withFetchWord (s : State) (nbits w : Nat) : State :=
  { s with
    requesters := s.requesters.modify 0 fun q => q.present (tableWord nbits w)
    schedule := .requester 0 :: s.schedule }

end Sys2Proof.Machine
end

