-- ==== Sys2Proof/Machine/Asm.lean ====
section
/-! DEFINITION. The assembler: the document's call syntax, its named constants, and the command word of a call (30_encoding.md R58, R59). -/

namespace Sys2Proof.Machine

/-- The command word of a call, or nothing where an integer does not fit its field (30_encoding.md R58). -/
def assembleCall (c : Call) : Option CmdWord := c.toInstr.map encode

/-- The symbols of the assembler that stand for an integer, with their values (30_encoding.md R59). -/
def symbolTable : List (String × Nat) :=
  [ ("Input", 0), ("Output", 1), ("Low", 0), ("High", 1), ("AllInput", 0x00), ("AllOutput", 0xFF),
    ("A", 0), ("B", 1), ("C", 2), ("D", 3) ]

/-- The value of a symbol. -/
def symbolValue (word : List Char) : Option Nat :=
  (symbolTable.find? fun e => e.1.toList == word).map Prod.snd

/-- The value of a digit. -/
def digitValue (c : Char) : Option Nat :=
  if '0' ≤ c ∧ c ≤ '9' then some (c.toNat - '0'.toNat)
  else if 'a' ≤ c ∧ c ≤ 'f' then some (c.toNat - 'a'.toNat + 10)
  else if 'A' ≤ c ∧ c ≤ 'F' then some (c.toNat - 'A'.toNat + 10)
  else none

/-- The digits of a number in a base, with underscores between them skipped. -/
def readDigits (base acc : Nat) : List Char → Option Nat
  | [] => some acc
  | '_' :: rest => readDigits base acc rest
  | c :: rest =>
    match digitValue c with
    | some d => if d < base then readDigits base (acc * base + d) rest else none
    | none => none

/-- At least one character, the first a digit, then digits and underscores (log 19). -/
def readNumber (base : Nat) : List Char → Option Nat
  | [] => none
  | '_' :: _ => none
  | digits => readDigits base 0 digits

/-- An integer in decimal, hexadecimal or binary (30_encoding.md R58). -/
def integerLiteral : List Char → Option Nat
  | '0' :: 'x' :: digits => readNumber 16 digits
  | '0' :: 'b' :: digits => readNumber 2 digits
  | digits => readNumber 10 digits

/-- An integer operand: a literal or a symbol (30_encoding.md R58, R59; log 19). -/
def integerOperand (word : List Char) : Option Nat :=
  match symbolValue word with
  | some n => some n
  | none => integerLiteral word

/-- A direction operand: `Input` or `Output` (30_encoding.md R58). -/
def directionOperand (word : List Char) : Option Direction :=
  if word = "Input".toList then some .input
  else if word = "Output".toList then some .output
  else none

/-- A level operand: `Low` or `High` (30_encoding.md R58). -/
def levelOperand (word : List Char) : Option Level :=
  if word = "Low".toList then some .low
  else if word = "High".toList then some .high
  else none

/-- A word without the blanks around it (log 19). -/
def trimBlanks (word : List Char) : List Char :=
  ((word.dropWhile (· == ' ')).reverse.dropWhile (· == ' ')).reverse

/-- The parts of a text between the separators. -/
def splitAtChar (sep : Char) : List Char → List (List Char)
  | [] => [[]]
  | c :: rest =>
    let parts := splitAtChar sep rest
    if c = sep then [] :: parts
    else match parts with
      | [] => [[c]]
      | p :: ps => (c :: p) :: ps

/-- A text `name(operands)`: the name and the operands, without the blanks around them. -/
def splitCall (text : List Char) : Option (List Char × List (List Char)) :=
  match splitAtChar '(' (trimBlanks text) with
  | [name, rest] =>
    match rest.reverse with
    | ')' :: operands => some (trimBlanks name, (splitAtChar ',' operands.reverse).map trimBlanks)
    | _ => none
  | _ => none

/-- The call a text writes out: an operation name, spelled exactly, and its operands in the order of its signature
(30_encoding.md R58). -/
def parseCall (text : List Char) : Option Call :=
  match splitCall text with
  | none => none
  | some (name, operands) =>
    if name = "setupPinDirection".toList then
      match operands with
      | [p, n, d] => do return .setupPinDirection (← integerOperand p) (← integerOperand n) (← directionOperand d)
      | _ => none
    else if name = "setupPortDirection".toList then
      match operands with
      | [p, m] => do return .setupPortDirection (← integerOperand p) (← integerOperand m)
      | _ => none
    else if name = "readPin".toList then
      match operands with
      | [p, n] => do return .readPin (← integerOperand p) (← integerOperand n)
      | _ => none
    else if name = "readPort".toList then
      match operands with
      | [p] => do return .readPort (← integerOperand p)
      | _ => none
    else if name = "writePin".toList then
      match operands with
      | [p, n, l] => do return .writePin (← integerOperand p) (← integerOperand n) (← levelOperand l)
      | _ => none
    else if name = "writePort".toList then
      match operands with
      | [p, v] => do return .writePort (← integerOperand p) (← integerOperand v)
      | _ => none
    else none

/-- The command word of one line of assembler text, or nothing where it is no call or an integer does not fit (30_encoding.md R58). -/
def assemble (text : String) : Option CmdWord := (parseCall text.toList).bind assembleCall

end Sys2Proof.Machine
end

