-- ==== Sys2Proof/Safety.lean ====
section
/-! DEFINITION. The terms the claims use: what a step or a command leaves alone, the soundness of a run's bookkeeping, the work a run
has left. -/

namespace Sys2Proof.Machine

/-- A stored register, `DIR[p]` or `OUT[p]`. -/
def State.stored (s : State) (p : Nat) (k : StoredKind) : Byte := s.regRead p k.toKind

/-- `t` has the stored registers of `s`, but for those of port `p` and kind `k`. -/
def OtherRegistersKept (s t : State) (p : Nat) (k : StoredKind) : Prop :=
  ∀ p' k', ¬ (p' = p ∧ k' = k) → t.stored p' k' = s.stored p' k'

/-- `t` has every stored register of `s`. -/
def RegistersKept (s t : State) : Prop := ∀ p k, t.stored p k = s.stored p k

/-- Everything a command never touches: the number of ports, what the environment applies, the parameters, the requesters and the
turns to come. -/
structure SurroundingsKept (s t : State) : Prop where
  numPorts : t.numPorts = s.numPorts
  ext : ∀ p, (t.port p).ext = (s.port p).ext
  pinModel : t.pinModel = s.pinModel
  rmwAtomic : t.rmwAtomic = s.rmwAtomic
  requesters : t.requesters = s.requesters
  schedule : t.schedule = s.schedule

/-- The stored register and port an operation writes, if it writes one (10_state.md R16). -/
def writeTarget : Instr → Option (StoredKind × Byte)
  | .setupPinDirection port _ _ => some (.dir, port)
  | .setupPortDirection port _ => some (.dir, port)
  | .readPin _ _ => none
  | .readPort _ => none
  | .writePin port _ _ => some (.out, port)
  | .writePort port _ => some (.out, port)

/-- The identifiers of an operation are valid (40_operation_common.md R66). -/
def operandsValid (s : State) : Instr → Bool
  | .setupPinDirection port pin _ => validPortPin s port pin
  | .setupPortDirection port _ => validPort s port
  | .readPin port pin => validPortPin s port pin
  | .readPort port => validPort s port
  | .writePin port pin _ => validPortPin s port pin
  | .writePort port _ => validPort s port

/-- The response a command word may get: a byte for a read, 0x00 or 0x01 for `readPin`, none for everything else (30_encoding.md R56). -/
def responseFits : Decoded → Response → Bool
  | .instr (.readPin _ _), .byte v => v == 0x00#8 || v == 0x01#8
  | .instr (.readPort _), .byte _ => true
  | .instr (.readPin _ _), .none => false
  | .instr (.readPort _), .none => false
  | .instr (.setupPinDirection _ _ _), r => r == .none
  | .instr (.setupPortDirection _ _), r => r == .none
  | .instr (.writePin _ _ _), r => r == .none
  | .instr (.writePort _ _), r => r == .none
  | .reserved _, r => r == .none

/-- A requester's half-done operation is that of the word it has reached, with valid identifiers. -/
structure InFlightSound (s : State) (q : Requester) (f : InFlight) : Prop where
  splits : s.splits = true
  valid : validPortPin s f.port f.pin = true
  word : ∃ (cmd : CmdWord) (i : Instr), q.nextWord = some cmd ∧ decode cmd = .instr i ∧ bitTarget i = some (f.kind, f.port, f.pin, f.value)

/-- The bookkeeping of a requester: it has got one fitting response for each command it has done. -/
structure RequesterSound (s : State) (q : Requester) : Prop where
  index_le : q.index ≤ q.program.length
  responses_length : q.responses.length = q.index
  responses_fit : ∀ (j : Nat) (cmd : CmdWord) (r : Response), q.program[j]? = some cmd → q.responses[j]? = some r → responseFits (decode cmd) r = true
  inFlight : ∀ f, q.inFlight = some f → InFlightSound s q f

/-- The parameters are in range and every requester's bookkeeping is sound. -/
structure State.Sound (s : State) : Prop where
  legal : s.legal = true
  requesters : ∀ q ∈ s.requesters, RequesterSound s q

/-- The accesses and commands a requester has left: at most two steps a command (40_operation_common.md R72). -/
def Requester.work (q : Requester) : Nat :=
  2 * (q.program.length - q.index) - (if q.inFlight.isSome then 1 else 0)

/-- The steps a run has left at most, beside the turns of its schedule. -/
def State.work (s : State) : Nat := (s.requesters.map Requester.work).sum

/-- A turn that is not an access outside the six operations. -/
def Turn.ordinary : Turn → Bool
  | .requester _ => true
  | .environment _ _ => true
  | .directAccess _ _ _ => false

/-- Run operations one after the other, each as one step of the block. -/
def execAll : List Instr → State → Host.Outcome State Fault Refusal
  | [], s => .next s
  | i :: is, s =>
    match exec i s with
    | .next t => execAll is t
    | .fault r => .fault r
    | .refused r => .refused r

end Sys2Proof.Machine
end

