-- ==== Sys2Proof/Certificates/Slice0/Obligations.lean ====
section
/-! DEFINITION. The statements for the provers. Each docstring says which rule of spec/ it formalises. A statement that rests on the
free values (`Config.extDraw`, `Config.turnDraw`, `Config.hasPullup`) holds for every value of them. -/

open Sys2Proof Sys2Proof.Machine

/-! ## Direction operations -/

/-- 41_direction.md R75. Where several requesters act, the read and the write are two accesses (the second clause). The pins: `PADOE`, `LEVEL` and `PADPU` of the addressed pin follow the new bit. -/
def Obligations.SetupPinDirectionChangesOneDirectionBit : Prop :=
  (∀ port pin data : Byte, decode (packCmd 0x00#8 port pin data) =
    .instr (.setupPinDirection port pin (if data.getLsbD 0 then .output else .input))) ∧
  (∀ (s : State) (port pin data : Byte), s.splits = true → port.toNat < s.numPorts → pin.toNat < 8 →
    s.splitStart (packCmd 0x00#8 port pin data) =
      some { kind := .dir, port := port, pin := pin, value := data.getLsbD 0, t := s.dir port.toNat }) ∧
  ∀ (s : State) (port pin : Byte) (d : Direction), ∃ t,
    exec (.setupPinDirection port pin d) s = .next t ∧ t.rsp = .none ∧ SurroundingsKept s t ∧
    (port.toNat < s.numPorts ∧ pin.toNat < 8 →
      t.dir port.toNat =
        (if d = .output then s.dir port.toNat ||| 1#8 <<< pin.toNat
          else s.dir port.toNat &&& ~~~ (1#8 <<< pin.toNat)) ∧
      (∀ i < 8, (t.dir port.toNat).getLsbD i =
        if i = pin.toNat then decide (d = .output) else (s.dir port.toNat).getLsbD i) ∧
      OtherRegistersKept s t port.toNat .dir ∧
      (∀ i < 8, (t.padOe port.toNat).getLsbD i =
        if i = pin.toNat then decide (d = .output) else (s.padOe port.toNat).getLsbD i) ∧
      (s.pinModel = .loopback → (t.level port.toNat).getLsbD pin.toNat =
        if d = .output then (s.out port.toNat).getLsbD pin.toNat else (t.extNow port.toNat).getLsbD pin.toNat) ∧
      (t.padPu port.toNat).getLsbD pin.toNat =
        (Config.hasPullup && decide (d = .input) && (s.out port.toNat).getLsbD pin.toNat)) ∧
    (¬ (port.toNat < s.numPorts ∧ pin.toNat < 8) → t.ports = s.ports)

/-- 41_direction.md R76: a full replace in one access, which no other requester can split; the `PIN` field has no effect. -/
def Obligations.SetupPortDirectionReplacesDirection : Prop :=
  (∀ port pin data : Byte, decode (packCmd 0x01#8 port pin data) = .instr (.setupPortDirection port data)) ∧
  (∀ (s : State) (port pin data : Byte), s.splitStart (packCmd 0x01#8 port pin data) = none) ∧
  ∀ (s : State) (port mask : Byte), ∃ t,
    exec (.setupPortDirection port mask) s = .next t ∧ t.rsp = .none ∧ SurroundingsKept s t ∧
    (port.toNat < s.numPorts →
      t.dir port.toNat = mask ∧ OtherRegistersKept s t port.toNat .dir ∧ t.padOe port.toNat = mask ∧
      (∀ i < 8, (t.level port.toNat).getLsbD i =
        if mask.getLsbD i = true ∧ s.pinModel = .loopback then (s.out port.toNat).getLsbD i
        else (t.extNow port.toNat).getLsbD i) ∧
      t.padPu port.toNat = if Config.hasPullup then ~~~ mask &&& s.out port.toNat else 0x00#8) ∧
    (¬ port.toNat < s.numPorts → t.ports = s.ports)

/-- 41_direction.md R77 and 43_write.md R88: a whole-port operation undoes every earlier single-pin operation on the port, and a later
single-pin operation changes only its own bit of what the whole-port operation wrote. -/
def Obligations.PinOperationsMergeAndPortOperationsReplace : Prop :=
  (∀ (s : State) (port mask pin : Byte) (d : Direction) (earlier : List (Byte × Direction)),
    port.toNat < s.numPorts → pin.toNat < 8 → ∃ t u,
      execAll (earlier.map (fun e => .setupPinDirection port e.1 e.2) ++ [.setupPortDirection port mask]) s = .next t ∧
      t.dir port.toNat = mask ∧
      exec (.setupPinDirection port pin d) t = .next u ∧
      ∀ i < 8, (u.dir port.toNat).getLsbD i = if i = pin.toNat then decide (d = .output) else mask.getLsbD i) ∧
  (∀ (s : State) (port value pin : Byte) (l : Level) (earlier : List (Byte × Level)),
    port.toNat < s.numPorts → pin.toNat < 8 → ∃ t u,
      execAll (earlier.map (fun e => .writePin port e.1 e.2) ++ [.writePort port value]) s = .next t ∧
      t.out port.toNat = value ∧
      exec (.writePin port pin l) t = .next u ∧
      ∀ i < 8, (u.out port.toNat).getLsbD i = if i = pin.toNat then decide (l = .high) else value.getLsbD i)

/-! ## Read operations -/

/-- 42_read.md R80: one bit of `IN[port]` as 0x00 or 0x01, the sentinel 0x00 on an invalid identifier, no register written. -/
def Obligations.ReadPinReturnsThePinLevel : Prop :=
  (∀ port pin data : Byte, decode (packCmd 0x02#8 port pin data) = .instr (.readPin port pin)) ∧
  ∀ (s : State) (port pin : Byte), ∃ t,
    exec (.readPin port pin) s = .next t ∧ t.ports = s.ports ∧ SurroundingsKept s t ∧
    (port.toNat < s.numPorts ∧ pin.toNat < 8 →
      t.rsp = .byte (if (s.level port.toNat).getLsbD pin.toNat then 0x01#8 else 0x00#8) ∧
      (s.pinModel = .loopback → (s.level port.toNat).getLsbD pin.toNat =
        if (s.dir port.toNat).getLsbD pin.toNat then (s.out port.toNat).getLsbD pin.toNat
        else (s.extNow port.toNat).getLsbD pin.toNat) ∧
      (s.pinModel = .free → (s.level port.toNat).getLsbD pin.toNat = (s.extNow port.toNat).getLsbD pin.toNat)) ∧
    (¬ (port.toNat < s.numPorts ∧ pin.toNat < 8) → t.rsp = .byte 0x00#8)

/-- 42_read.md R81: the byte of `IN[port]`, written as the rule's one expression for each pin model; the sentinel on an invalid port;
the `PIN` and `DATA` fields have no effect; no register written. -/
def Obligations.ReadPortReturnsTheLevels : Prop :=
  (∀ port pin data : Byte, decode (packCmd 0x03#8 port pin data) = .instr (.readPort port)) ∧
  ∀ (s : State) (port : Byte), ∃ t,
    exec (.readPort port) s = .next t ∧ t.ports = s.ports ∧ SurroundingsKept s t ∧
    (port.toNat < s.numPorts → t.rsp = .byte
      (if s.pinModel = .loopback then
          (s.out port.toNat &&& s.dir port.toNat) ||| (s.extNow port.toNat &&& ~~~ s.dir port.toNat)
        else s.extNow port.toNat)) ∧
    (¬ port.toNat < s.numPorts → t.rsp = .byte 0x00#8)

/-- 42_read.md R82: an invalid read, a read of a low pin and a read of an all-low port all respond 0, and write no register. -/
def Obligations.InvalidReadLooksLikeALowLevel : Prop :=
  (∀ (s : State) (port pin : Byte),
    ¬ (port.toNat < s.numPorts ∧ pin.toNat < 8) ∨ (s.level port.toNat).getLsbD pin.toNat = false →
    ∃ t, exec (.readPin port pin) s = .next t ∧ t.rsp = .byte 0x00#8 ∧ t.ports = s.ports) ∧
  (∀ (s : State) (port : Byte), s.numPorts ≤ port.toNat ∨ s.level port.toNat = 0x00#8 →
    ∃ t, exec (.readPort port) s = .next t ∧ t.rsp = .byte 0x00#8 ∧ t.ports = s.ports)

/-- 20_memory.md R33 and 10_state.md R17: reading `IN` gives the level of this instant, bit by bit from `DIR`, `OUT` and `EXT`. -/
def Obligations.InputRegisterReadsThePinLevel : Prop :=
  ∀ (s : State) (p i : Nat), i < 8 →
    (s.regRead p .inp).getLsbD i =
      if (s.regRead p .dir).getLsbD i = true ∧ s.pinModel = .loopback then (s.regRead p .out).getLsbD i
      else (s.extNow p).getLsbD i

/-! ## Write operations -/

/-- 43_write.md R85: one bit of `OUT[port]`, whatever the direction of the pin; where several requesters act, the read and the write
are two accesses (the second clause). -/
def Obligations.WritePinChangesOneOutputBit : Prop :=
  (∀ port pin data : Byte, decode (packCmd 0x04#8 port pin data) =
    .instr (.writePin port pin (if data.getLsbD 0 then .high else .low))) ∧
  (∀ (s : State) (port pin data : Byte), s.splits = true → port.toNat < s.numPorts → pin.toNat < 8 →
    s.splitStart (packCmd 0x04#8 port pin data) =
      some { kind := .out, port := port, pin := pin, value := data.getLsbD 0, t := s.out port.toNat }) ∧
  ∀ (s : State) (port pin : Byte) (l : Level), ∃ t,
    exec (.writePin port pin l) s = .next t ∧ t.rsp = .none ∧ SurroundingsKept s t ∧
    (port.toNat < s.numPorts ∧ pin.toNat < 8 →
      t.out port.toNat =
        (if l = .high then s.out port.toNat ||| 1#8 <<< pin.toNat
          else s.out port.toNat &&& ~~~ (1#8 <<< pin.toNat)) ∧
      (∀ i < 8, (t.out port.toNat).getLsbD i =
        if i = pin.toNat then decide (l = .high) else (s.out port.toNat).getLsbD i) ∧
      OtherRegistersKept s t port.toNat .out ∧
      (t.padOut port.toNat).getLsbD pin.toNat = decide (l = .high) ∧
      (s.pinModel = .loopback → (s.dir port.toNat).getLsbD pin.toNat = true → ∃ u,
        exec (.readPin port pin) t = .next u ∧ u.rsp = .byte (if l = .high then 0x01#8 else 0x00#8))) ∧
    (¬ (port.toNat < s.numPorts ∧ pin.toNat < 8) → t.ports = s.ports)

/-- 43_write.md R86: a full replace of `OUT[port]` in one access; the `PIN` field has no effect. -/
def Obligations.WritePortReplacesOutput : Prop :=
  (∀ port pin data : Byte, decode (packCmd 0x05#8 port pin data) = .instr (.writePort port data)) ∧
  (∀ (s : State) (port pin data : Byte), s.splitStart (packCmd 0x05#8 port pin data) = none) ∧
  ∀ (s : State) (port value : Byte), ∃ t,
    exec (.writePort port value) s = .next t ∧ t.rsp = .none ∧ SurroundingsKept s t ∧
    (port.toNat < s.numPorts →
      t.out port.toNat = value ∧ OtherRegistersKept s t port.toNat .out ∧ t.padOut port.toNat = value) ∧
    (¬ port.toNat < s.numPorts → t.ports = s.ports)

/-- 43_write.md R87: a write to the output bit of an input pin stores the bit, drives nothing, sets the pull-up enable where there is
one, and leaves the level to the outside. -/
def Obligations.WritingAnInputPinOnlyStoresTheBit : Prop :=
  (∀ (s : State) (port pin : Byte) (l : Level),
    port.toNat < s.numPorts → pin.toNat < 8 → (s.dir port.toNat).getLsbD pin.toNat = false → ∃ t,
      exec (.writePin port pin l) s = .next t ∧
      (t.out port.toNat).getLsbD pin.toNat = decide (l = .high) ∧
      (t.padOe port.toNat).getLsbD pin.toNat = false ∧
      (t.padPu port.toNat).getLsbD pin.toNat = (Config.hasPullup && decide (l = .high)) ∧
      (t.level port.toNat).getLsbD pin.toNat = (t.extNow port.toNat).getLsbD pin.toNat) ∧
  (∀ (s : State) (port value : Byte), port.toNat < s.numPorts → ∃ t,
    exec (.writePort port value) s = .next t ∧ ∀ i < 8, (s.dir port.toNat).getLsbD i = false →
      (t.out port.toNat).getLsbD i = value.getLsbD i ∧
      (t.padOe port.toNat).getLsbD i = false ∧
      (t.padPu port.toNat).getLsbD i = (Config.hasPullup && value.getLsbD i) ∧
      (t.level port.toNat).getLsbD i = (t.extNow port.toNat).getLsbD i)

/-- 90_conflicts.md C4 (source property S3): High then Low leaves the target bit 0 and the other bits alone; the register is back to what
it was exactly when the target bit was 0. -/
def Obligations.HighThenLowClearsTheBit : Prop :=
  ∀ (s : State) (port pin : Byte), port.toNat < s.numPorts → pin.toNat < 8 → ∃ t,
    execAll [.writePin port pin .high, .writePin port pin .low] s = .next t ∧
    (∀ i < 8, (t.out port.toNat).getLsbD i = if i = pin.toNat then false else (s.out port.toNat).getLsbD i) ∧
    (t.out port.toNat = s.out port.toNat ↔ (s.out port.toNat).getLsbD pin.toNat = false)

/-! ## What all operations share -/

/-- 60_exceptions.md R92: with an invalid identifier no state changes but the response, which is the sentinel for a read and none for the
other four. -/
def Obligations.InvalidIdentifierIsASilentNoOp : Prop :=
  ∀ (s : State) (port pin v : Byte) (d : Direction) (l : Level),
    (¬ port.toNat < s.numPorts →
      (∃ t, exec (.setupPortDirection port v) s = .next t ∧ t.ports = s.ports ∧ SurroundingsKept s t ∧ t.rsp = .none) ∧
      (∃ t, exec (.writePort port v) s = .next t ∧ t.ports = s.ports ∧ SurroundingsKept s t ∧ t.rsp = .none) ∧
      (∃ t, exec (.readPort port) s = .next t ∧ t.ports = s.ports ∧ SurroundingsKept s t ∧ t.rsp = .byte 0x00#8)) ∧
    (¬ port.toNat < s.numPorts ∨ ¬ pin.toNat < 8 →
      (∃ t, exec (.setupPinDirection port pin d) s = .next t ∧ t.ports = s.ports ∧ SurroundingsKept s t ∧ t.rsp = .none) ∧
      (∃ t, exec (.writePin port pin l) s = .next t ∧ t.ports = s.ports ∧ SurroundingsKept s t ∧ t.rsp = .none) ∧
      (∃ t, exec (.readPin port pin) s = .next t ∧ t.ports = s.ports ∧ SurroundingsKept s t ∧ t.rsp = .byte 0x00#8))

/-- 30_encoding.md R55 and 60_exceptions.md R93: a word whose opcode is 0x06 to 0xFF is decoded as reserved and executed as a no-op with
response none; no other word is reserved. -/
def Obligations.ReservedOpcodeIsASilentNoOp : Prop :=
  ∀ (s : State) (cmd : CmdWord),
    (6 ≤ (opField cmd).toNat → decode cmd = .reserved (opField cmd) ∧ ∃ t,
      runWord cmd s = .next t ∧ t.ports = s.ports ∧ SurroundingsKept s t ∧ t.rsp = .none) ∧
    (¬ 6 ≤ (opField cmd).toNat → ∃ i, decode cmd = .instr i)

/-- 40_operation_common.md R67: after a command the registers are what they were, or exactly one register of the addressed port
differs, in the addressed bit alone for a single-pin operation and to the whole data byte for a byte-wide one. -/
def Obligations.CommandIsAllOrNothing : Prop :=
  ∀ (s : State) (cmd : CmdWord), ∃ t, runWord cmd s = .next t ∧
    (RegistersKept s t ∨
      ∃ i k port, decode cmd = .instr i ∧ writeTarget i = some (k, port) ∧ operandsValid s i = true ∧
        OtherRegistersKept s t port.toNat k ∧
        (match bitTarget i with
          | some (_, _, pin, b) => ∀ j < 8, (t.stored port.toNat k).getLsbD j =
              if j = pin.toNat then b else (s.stored port.toNat k).getLsbD j
          | none => t.stored port.toNat k = dataField cmd))

/-- 30_encoding.md R56: the response of every command word, valid identifiers or not. -/
def Obligations.ResponseShapeFollowsTheOpcode : Prop :=
  ∀ (s : State) (cmd : CmdWord), ∃ t, runWord cmd s = .next t ∧
    ((opField cmd).toNat = 2 → t.rsp = .byte 0x00#8 ∨ t.rsp = .byte 0x01#8) ∧
    ((opField cmd).toNat = 3 → ∃ v, t.rsp = .byte v) ∧
    ((opField cmd).toNat ≠ 2 → (opField cmd).toNat ≠ 3 → t.rsp = .none) ∧
    (((opField cmd).toNat = 2 ∨ (opField cmd).toNat = 3) → ¬ (portField cmd).toNat < s.numPorts →
      t.rsp = .byte 0x00#8) ∧
    ((opField cmd).toNat = 2 → ¬ (pinField cmd).toNat < 8 → t.rsp = .byte 0x00#8)

/-- 40_operation_common.md R68, the table of laws. -/
def Obligations.BitLaws : Prop :=
  (∀ (v : Byte) (i : Nat), i < 8 →
    (setBit v i).getLsbD i = true ∧ (clrBit v i).getLsbD i = false ∧
    (∀ j < 8, j ≠ i → (setBit v i).getLsbD j = v.getLsbD j ∧ (clrBit v i).getLsbD j = v.getLsbD j) ∧
    getBit v i = (if v.getLsbD i then 0x01#8 else 0x00#8) ∧
    setBit (setBit v i) i = setBit v i ∧ clrBit (clrBit v i) i = clrBit v i ∧
    clrBit (setBit v i) i = clrBit v i ∧ setBit (clrBit v i) i = setBit v i ∧
    (v.getLsbD i = true → setBit v i = v) ∧ (v.getLsbD i = false → clrBit v i = v)) ∧
  (∀ (v : Byte) (i j : Nat), i < 8 → j < 8 → i ≠ j →
    setBit (clrBit v j) i = clrBit (setBit v i) j ∧
    setBit (setBit v j) i = setBit (setBit v i) j ∧
    clrBit (clrBit v j) i = clrBit (clrBit v i) j) ∧
  (∀ (s : State) (port pin : Byte),
    (validPort s port = true ↔ port.toNat < s.numPorts) ∧ (validPin pin = true ↔ pin.toNat < 8)) ∧
  (List.range 8).map pinMask = [0x01#8, 0x02#8, 0x04#8, 0x08#8, 0x10#8, 0x20#8, 0x40#8, 0x80#8] ∧
  (List.range 8).map (fun i => ~~~ pinMask i) = [0xFE#8, 0xFD#8, 0xFB#8, 0xF7#8, 0xEF#8, 0xDF#8, 0xBF#8, 0x7F#8]

/-- 40_operation_common.md R69: what a command does depends on the word, the registers and, for a read, on `EXT`; a command repeated at
once changes no register again; a read repeated at once responds the same unless the level changed. -/
def Obligations.CommandsAreIndependentAndIdempotent : Prop :=
  (∀ (cmd : CmdWord) (s s' t t' : State), runWord cmd s = .next t → runWord cmd s' = .next t' →
    s'.numPorts = s.numPorts → RegistersKept s s' →
    RegistersKept t t' ∧
    (s'.pinModel = s.pinModel → (∀ p, s'.extNow p = s.extNow p) → t'.rsp = t.rsp)) ∧
  (∀ (cmd : CmdWord) (s t u : State), runWord cmd s = .next t → runWord cmd t = .next u →
    RegistersKept t u ∧ (t.level (portField cmd).toNat = s.level (portField cmd).toNat → u.rsp = t.rsp))

/-- 40_operation_common.md section 4 (rule R70's "In particular"): the write operations do not look at `DIR`, the direction operations do
not look at `OUT`, and the reads look at the registers through the level alone. -/
def Obligations.DirectionAndOutputDoNotInterfere : Prop :=
  ∀ (s s' : State), s'.numPorts = s.numPorts →
    ((∀ p, s'.out p = s.out p) → ∀ i k port, writeTarget i = some (k, port) → k = .out → ∀ t t',
      exec i s = .next t → exec i s' = .next t' → (∀ p, t'.out p = t.out p ∧ t'.dir p = s'.dir p) ∧ t'.rsp = t.rsp) ∧
    ((∀ p, s'.dir p = s.dir p) → ∀ i k port, writeTarget i = some (k, port) → k = .dir → ∀ t t',
      exec i s = .next t → exec i s' = .next t' → (∀ p, t'.dir p = t.dir p ∧ t'.out p = s'.out p) ∧ t'.rsp = t.rsp) ∧
    ((∀ p, s'.level p = s.level p) → ∀ i, writeTarget i = none → ∀ t t',
      exec i s = .next t → exec i s' = .next t' → t'.rsp = t.rsp)

/-- 20_memory.md R34: `RegWrite` replaces the 8 bits of one stored register and changes nothing else; a later read returns them. -/
def Obligations.RegWriteReplacesOneRegister : Prop :=
  ∀ (s : State) (p : Nat) (k : StoredKind) (v : Byte), p < s.numPorts →
    (s.regWrite p k v).regRead p k.toKind = v ∧ OtherRegistersKept s (s.regWrite p k v) p k ∧
    SurroundingsKept s (s.regWrite p k v) ∧ (s.regWrite p k v).rsp = s.rsp

/-- 10_state.md R18 and R19: the pad buses are copies of the registers, and the pull-up enables are the output bits of input pins where
the hardware has pull-ups, after every command. -/
def Obligations.PadBusesFollowTheRegisters : Prop :=
  ∀ (i : Instr) (s t : State) (p j : Nat), exec i s = .next t → j < 8 →
    (t.padOe p).getLsbD j = (t.regRead p .dir).getLsbD j ∧
    (t.padOut p).getLsbD j = (t.regRead p .out).getLsbD j ∧
    (t.padPu p).getLsbD j =
      (Config.hasPullup && !(t.regRead p .dir).getLsbD j && (t.regRead p .out).getLsbD j)

/-- 70_reset_and_hazards.md section 3 (rule R112, under the model's default pin model): a read that follows a write at once sees it on
every output pin. -/
def Obligations.ReadBackHasNoDelay : Prop :=
  ∀ (s : State) (port value : Byte), port.toNat < s.numPorts → s.pinModel = .loopback → ∃ t u v,
    exec (.writePort port value) s = .next t ∧ exec (.readPort port) t = .next u ∧ u.rsp = .byte v ∧
    ∀ i < 8, (s.dir port.toNat).getLsbD i = true → v.getLsbD i = value.getLsbD i

/-- 70_reset_and_hazards.md section 3 (rule R111, which the spec derives): a level written first is what the pin shows at the instant it
becomes an output, and the order of the two commands on different registers does not matter for the registers. -/
def Obligations.PinComesUpAtTheHeldLevel : Prop :=
  ∀ (s : State) (port pin : Byte) (l : Level), port.toNat < s.numPorts → pin.toNat < 8 → ∃ t u,
    execAll [.writePin port pin l, .setupPinDirection port pin .output] s = .next t ∧
    execAll [.setupPinDirection port pin .output, .writePin port pin l] s = .next u ∧
    (t.padOe port.toNat).getLsbD pin.toNat = true ∧
    (t.padOut port.toNat).getLsbD pin.toNat = decide (l = .high) ∧
    (s.pinModel = .loopback → (t.level port.toNat).getLsbD pin.toNat = decide (l = .high)) ∧
    RegistersKept t u

/-! ## Encoding -/

/-- 30_encoding.md section 7 (rule R60, which the spec derives): decode and encode agree, for every operation with every operand and
for every word with a defined opcode whose ignored bits are zero. -/
def Obligations.DecodeAndEncodeAgree : Prop :=
  (∀ i : Instr, decode (encode i) = .instr i) ∧
  (∀ (cmd : CmdWord) (i : Instr), decode cmd = .instr i → encode i = cmd &&& i.usedBits) ∧
  (∀ (cmd : CmdWord) (i : Instr), decode cmd = .instr i → cmd &&& ~~~ i.usedBits = 0#32 → encode i = cmd)

/-- 30_encoding.md R54: words that differ in ignored fields only do the same in every state, and the encoder writes zeros there. -/
def Obligations.IgnoredFieldsHaveNoEffect : Prop :=
  ∀ (cmd cmd' : CmdWord) (i : Instr), decode cmd = .instr i → cmd' &&& i.usedBits = cmd &&& i.usedBits →
    decode cmd' = .instr i ∧ encode i &&& ~~~ i.usedBits = 0#32 ∧
    ∀ s : State, runWord cmd' s = runWord cmd s ∧ s.splitStart cmd' = s.splitStart cmd

/-- 30_encoding.md sections 3 and 5 (R53's match and mask, R57): every word with an opcode below 6 is hit by exactly the row of its own
operation, and a reserved word by none. -/
def Obligations.EveryWordHitsItsOwnRowOnly : Prop :=
  ∀ cmd : CmdWord,
    match decode cmd with
    | .instr i => (opcodeTable.filter fun r => r.hits cmd).map OpcodeRow.mnemonic = [i.mnemonic]
    | .reserved op => op = opField cmd ∧ (opcodeTable.filter fun r => r.hits cmd) = []

/-- 30_encoding.md section 7, the worked encodings, and 95_test_vectors.md V-E2 to V-E6: sample words decode to what they stand for. -/
def Obligations.SampleWordsDecode : Prop :=
  decode 0x00000301#32 = .instr (.setupPinDirection 0#8 3#8 .output) ∧
  decode 0x00030700#32 = .instr (.setupPinDirection 3#8 7#8 .input) ∧
  decode 0x0102000F#32 = .instr (.setupPortDirection 2#8 0x0F#8) ∧
  decode 0x02000800#32 = .instr (.readPin 0#8 8#8) ∧
  decode 0x0300C877#32 = .instr (.readPort 0#8) ∧
  decode 0x040003FF#32 = .instr (.writePin 0#8 3#8 .high) ∧
  decode 0x050400AA#32 = .instr (.writePort 4#8 0xAA#8) ∧
  decode 0x06000000#32 = .reserved 0x06#8 ∧
  decode 0xFFFFFFFF#32 = .reserved 0xFF#8

/-- 30_encoding.md R58: the word of each call, as a number; a call with an integer above 255 is an assembly error. -/
def Obligations.AssemblerPlacesTheOperands : Prop :=
  ∀ (port pin v : Nat) (d : Direction) (l : Level),
    (assembleCall (.setupPinDirection port pin d) =
      if port ≤ 255 ∧ pin ≤ 255 then
        some (BitVec.ofNat 32 (port * 2 ^ 16 + pin * 2 ^ 8 + (if d = .output then 1 else 0))) else none) ∧
    (assembleCall (.setupPortDirection port v) =
      if port ≤ 255 ∧ v ≤ 255 then some (BitVec.ofNat 32 (1 * 2 ^ 24 + port * 2 ^ 16 + v)) else none) ∧
    (assembleCall (.readPin port pin) =
      if port ≤ 255 ∧ pin ≤ 255 then some (BitVec.ofNat 32 (2 * 2 ^ 24 + port * 2 ^ 16 + pin * 2 ^ 8)) else none) ∧
    (assembleCall (.readPort port) =
      if port ≤ 255 then some (BitVec.ofNat 32 (3 * 2 ^ 24 + port * 2 ^ 16)) else none) ∧
    (assembleCall (.writePin port pin l) =
      if port ≤ 255 ∧ pin ≤ 255 then
        some (BitVec.ofNat 32 (4 * 2 ^ 24 + port * 2 ^ 16 + pin * 2 ^ 8 + (if l = .high then 1 else 0))) else none) ∧
    (assembleCall (.writePort port v) =
      if port ≤ 255 ∧ v ≤ 255 then some (BitVec.ofNat 32 (5 * 2 ^ 24 + port * 2 ^ 16 + v)) else none)

/-- 10_state.md R15: a register number names the register it was made from, and the numbers `4p + 3` name nothing. -/
def Obligations.RegisterNumbersNameTheirRegisters : Prop :=
  ∀ numPorts p : Nat, p < numPorts →
    (∀ k, csrOf numPorts (csrNum p k) = some (p, k)) ∧ csrOf numPorts (4 * p + 3) = none

/-! ## The run -/

/-- 40_operation_common.md R65 as a step of a run: when the word a requester presents decodes to an operation, or is reserved, the step is
that operation's execution, with the requester's index and response list moved on (10_state.md R21); a single-bit operation of
several requesters is the exception, stated in `SplitOperationReadsThenWrites`. -/
def Obligations.StepRunsTheDecodedInstruction : Prop :=
  (∀ (s : State) (r : Nat) (rest : List Turn) (q : Requester) (cmd : CmdWord) (i : Instr),
    s.legal = true → s.schedule = .requester r :: rest → s.requesters[r]? = some q → q.inFlight = none →
    q.nextWord = some cmd → decode cmd = .instr i →
    (s.splits = false ∨ bitTarget i = none ∨ operandsValid s i = false) →
    step s = mapNext (State.complete r) (exec i { s with schedule := rest })) ∧
  (∀ (s : State) (q : Requester) (cmd : CmdWord) (i : Instr),
    s.legal = true → s.schedule = [] → s.requesters = [q] → q.inFlight = none →
    q.nextWord = some cmd → decode cmd = .instr i →
    step s = mapNext (State.complete 0) (exec i s)) ∧
  (∀ (s : State) (r : Nat) (rest : List Turn) (q : Requester) (cmd : CmdWord) (op : Byte),
    s.legal = true → s.schedule = .requester r :: rest → s.requesters[r]? = some q → q.inFlight = none →
    q.nextWord = some cmd → decode cmd = .reserved op →
    step s = mapNext (State.complete r) (execReserved { s with schedule := rest }))

/-- The model's own loading (log 2): a word placed by `withFetchWord` is the one the very next step runs. -/
def Obligations.PlacedWordRunsNext : Prop :=
  ∀ (s : State) (nbits w : Nat) (i : Instr), s.legal = true → s.splits = false → decodeTableWord nbits w = some i →
    step (s.withFetchWord nbits w) =
      mapNext (State.complete 0) (exec i { s.withFetchWord nbits w with schedule := s.schedule })

/-- 20_memory.md R40: with one requester a command is one indivisible step, done before the next starts: its index moves on by 1, its
response joins the list, and nothing is half done. -/
def Obligations.OneRequesterRunsOneCommandPerStep : Prop :=
  ∀ (s : State) (q : Requester) (cmd : CmdWord),
    s.legal = true → s.schedule = [] → s.requesters = [q] → q.inFlight = none → q.nextWord = some cmd → ∃ u t,
      runWord cmd s = .next u ∧ step s = .next t ∧ t.ports = u.ports ∧ t.rsp = u.rsp ∧ t.schedule = [] ∧
      t.requesters = [{ q with index := q.index + 1, responses := q.responses ++ [u.rsp] }]

/-- 70_reset_and_hazards.md section 5 (what is observable) with 60_exceptions.md R92 and R93: a word that is reserved or has an invalid
identifier shows in the requester's response alone. -/
def Obligations.NoOpShowsInTheResponseOnly : Prop :=
  ∀ (s : State) (q : Requester) (cmd : CmdWord),
    s.legal = true → s.schedule = [] → s.requesters = [q] → q.inFlight = none → q.nextWord = some cmd →
    (∀ i, decode cmd = .instr i → operandsValid s i = false) → ∃ t,
      step s = .next t ∧
      t.observe = { s.observe with
        responses := [q.responses ++
          [if (opField cmd).toNat = 2 ∨ (opField cmd).toNat = 3 then .byte 0x00#8 else .none]] }

/-- 20_memory.md R37 and R41: with several requesters and `RMW_ATOMIC = false` a single-bit write is a read step and a write step; the
write step stores the byte computed from the stale read, whatever the register holds by then. -/
def Obligations.SplitOperationReadsThenWrites : Prop :=
  (∀ (s : State) (r : Nat) (rest : List Turn) (q : Requester) (cmd : CmdWord) (i : Instr)
      (k : StoredKind) (port pin : Byte) (b : Bool),
    s.legal = true → s.splits = true → s.schedule = .requester r :: rest → s.requesters[r]? = some q →
    q.inFlight = none → q.nextWord = some cmd → decode cmd = .instr i → bitTarget i = some (k, port, pin, b) →
    port.toNat < s.numPorts → pin.toNat < 8 → ∃ t,
      step s = .next t ∧ t.ports = s.ports ∧ t.rsp = s.rsp ∧ t.schedule = rest ∧
      t.requesters = s.requesters.set r
        { q with inFlight := some { kind := k, port := port, pin := pin, value := b, t := s.stored port.toNat k } }) ∧
  (∀ (s : State) (r : Nat) (rest : List Turn) (q : Requester) (f : InFlight),
    s.legal = true → s.schedule = .requester r :: rest → s.requesters[r]? = some q → q.inFlight = some f →
    f.port.toNat < s.numPorts → ∃ t,
      step s = .next t ∧ t.rsp = .none ∧ t.schedule = rest ∧
      (∀ j < 8, (t.stored f.port.toNat f.kind).getLsbD j = if j = f.pin.toNat then f.value else f.t.getLsbD j) ∧
      OtherRegistersKept s t f.port.toNat f.kind ∧
      t.requesters = s.requesters.set r
        { q with index := q.index + 1, inFlight := none, responses := q.responses ++ [.none] })

/-- 95_test_vectors.md P5 for every port, pin and level (20_memory.md R41, 70_reset_and_hazards.md R108): two requesters write different
pins of one port. Run inside the other's read-modify-write, the inner update is lost; one after the other, or with
`RMW_ATOMIC = true`, both land. -/
def Obligations.InterleavedPinWritesLoseAnUpdate : Prop :=
  ∀ (s : State) (m n : Requester) (port i j : Byte) (li lj : Level),
    s.legal = true → s.requesters = [m, n] → m.inFlight = none → n.inFlight = none →
    m.nextWord = some (encode (.writePin port i li)) → n.nextWord = some (encode (.writePin port j lj)) →
    port.toNat < s.numPorts → i.toNat < 8 → j.toNat < 8 → i ≠ j →
    (s.rmwAtomic = false → s.schedule = [.requester 0, .requester 1, .requester 1, .requester 0] → ∃ t : State,
      Host.Core.run Sys2Proof.core 4 s = .next t ∧
      ∀ b < 8, (t.out port.toNat).getLsbD b =
        if b = i.toNat then decide (li = .high) else (s.out port.toNat).getLsbD b) ∧
    (s.rmwAtomic = false → s.schedule = [.requester 0, .requester 0, .requester 1, .requester 1] → ∃ t : State,
      Host.Core.run Sys2Proof.core 4 s = .next t ∧
      ∀ b < 8, (t.out port.toNat).getLsbD b =
        if b = i.toNat then decide (li = .high)
        else if b = j.toNat then decide (lj = .high) else (s.out port.toNat).getLsbD b) ∧
    (s.rmwAtomic = true → s.schedule = [.requester 0, .requester 1] → ∃ t : State,
      Host.Core.run Sys2Proof.core 2 s = .next t ∧
      ∀ b < 8, (t.out port.toNat).getLsbD b =
        if b = i.toNat then decide (li = .high)
        else if b = j.toNat then decide (lj = .high) else (s.out port.toNat).getLsbD b)

/-- 20_memory.md R42: an environment step may give `EXT[p]` any value, a read then returns it wherever the level follows `EXT`, and the
step changes nothing else: no register, and no half-done operation of a requester. -/
def Obligations.EnvironmentChangesOnlyTheExternalLevel : Prop :=
  ∀ (s : State) (p : Nat) (e : ExtLevel) (rest : List Turn),
    s.legal = true → s.schedule = .environment p e :: rest → ∃ t,
      step s = .next t ∧ RegistersKept s t ∧ t.numPorts = s.numPorts ∧
      (∀ p', (t.port p').ext = if p' = p ∧ p < s.numPorts then e else (s.port p').ext) ∧
      t.pinModel = s.pinModel ∧ t.rmwAtomic = s.rmwAtomic ∧ t.requesters = s.requesters ∧
      t.schedule = rest ∧ t.rsp = s.rsp ∧
      (∀ v, e = .held v → p < s.numPorts → t.extNow p = v ∧ ∀ i < 8,
        (t.dir p).getLsbD i = false ∨ t.pinModel = .free → (t.regRead p .inp).getLsbD i = v.getLsbD i)

/-- 10_state.md R24, over the whole machine: a step that changes a stored register is a requester's turn that performs the write of a
mutating operation on that very register. -/
def Obligations.OnlyMutatingCommandsChangeRegisters : Prop :=
  ∀ (s t : State) (p : Nat) (k : StoredKind), step s = .next t → t.stored p k ≠ s.stored p k →
    ∃ (r : Nat) (q : Requester), s.nextTurn.1 = some (.requester r) ∧ s.requesters[r]? = some q ∧
      ((∃ f, q.inFlight = some f ∧ f.kind = k ∧ f.port.toNat = p) ∨
        (q.inFlight = none ∧ ∃ cmd i port, q.nextWord = some cmd ∧ decode cmd = .instr i ∧
          writeTarget i = some (k, port) ∧ port.toNat = p ∧ operandsValid s i = true))

/-- 60_exceptions.md R90: for every state and every 32-bit word the block returns a next state; and so does a step whose turn is not an
access outside the six operations. -/
def Obligations.TheBlockNeverFaultsOrSticks : Prop :=
  (∀ (s : State) (cmd : CmdWord), ∃ t, runWord cmd s = .next t) ∧
  (∀ s : State, s.legal = true → (∀ t, s.schedule.head? = some t → t.ordinary = true) → ∃ t, step s = .next t)

/-- 60_exceptions.md section 7 (R100) and 93_implementation_defined.md U4: the model stops at its own boundary only, by name. -/
def Obligations.OnlyTheModelBoundaryIsRefused : Prop :=
  (∀ s : State, (s.numPorts < 1 ∨ 256 < s.numPorts ∨ s.requesters = []) → step s = .refused .parameterOutOfRange) ∧
  (∀ (s : State) (p : Nat) (k : RegKind) (w : Option Byte) (rest : List Turn),
    s.legal = true → s.schedule = .directAccess p k w :: rest → step s = .refused .accessOutsideOperations) ∧
  (∀ (s : State) (e : Refusal), step s = .refused e →
    s.legal = false ∨ ∃ p k w rest, s.schedule = .directAccess p k w :: rest)

/-- 10_state.md R23: the registers at power-on, for every choice of the reset arguments, and the default of the arguments; a pin that
comes up as an input reads the outside. -/
def Obligations.PowerOnSetsTheRegisters : Prop :=
  (∀ (c : Config) (p : Nat), p < c.numPorts →
    (State.powerOn c).dir p = c.resetDir p ∧ (State.powerOn c).out p = c.resetOut p ∧
    (State.powerOn c).padOe p = c.resetDir p ∧ (State.powerOn c).padOut p = c.resetOut p ∧
    (State.powerOn c).padPu p = (if Config.hasPullup then ~~~ c.resetDir p &&& c.resetOut p else 0x00#8) ∧
    (c.resetDir p = 0x00#8 → (State.powerOn c).level p = (State.powerOn c).extNow p)) ∧
  (∀ c : Config, (State.powerOn c).numPorts = c.numPorts) ∧
  (∀ p, Config.reference.resetDir p = 0x00#8 ∧ Config.reference.resetOut p = 0x00#8)

/-- The invariant of `StepKeepsSoundness` at power-on, for every legal choice of the arguments, and at reset. -/
def Obligations.PowerOnIsSound : Prop :=
  (∀ c : Config, 1 ≤ c.numPorts → c.numPorts ≤ 256 → 1 ≤ c.nReq → (State.powerOn c).Sound) ∧ State.reset.Sound

/-- An invariant that every step keeps, from every state that meets it: the parameters stay in range, each requester has exactly one
response for each command it has done and each response fits its command (30_encoding.md R56), and a half-done operation is that of
the word the requester has reached, with valid identifiers (20_memory.md R37, R41). The arguments, the number of ports and the
command lists stay what they are. -/
def Obligations.StepKeepsSoundness : Prop :=
  ∀ s t : State, s.Sound → step s = .next t →
    t.Sound ∧ t.numPorts = s.numPorts ∧ t.pinModel = s.pinModel ∧ t.rmwAtomic = s.rmwAtomic ∧
    t.requesters.map Requester.program = s.requesters.map Requester.program

/-- 40_operation_common.md R72 and 70_reset_and_hazards.md R114: no command blocks, so every run of finite lists ends, whoever takes the
turns the schedule leaves open; then every requester has a response for every word of its list. -/
def Obligations.EveryRunOfFiniteListsEnds : Prop :=
  ∀ s : State, s.Sound → (∀ t ∈ s.schedule, t.ordinary = true) → ∃ t : State,
    Host.Core.run Sys2Proof.core (s.schedule.length + s.work) s = .next t ∧ t.ended = true ∧ t.schedule = [] ∧
    t.requesters.map Requester.program = s.requesters.map Requester.program ∧
    ∀ q ∈ t.requesters, q.index = q.program.length ∧ q.responses.length = q.program.length ∧ q.inFlight = none
end

