-- ==== Sys2Proof/Laws/Bits.lean ====
section
/-! SUPPORT. The bits of the shared byte operations. -/

namespace Sys2Proof.Machine

theorem getLsbD_pinMask (i j : Nat) : (pinMask i).getLsbD j = (decide (j < 8) && decide (j = i)) := by
  simp only [pinMask, BitVec.getLsbD_shiftLeft, BitVec.getLsbD_one]
  by_cases h : j < 8 <;> by_cases e : j = i <;> simp [h, e]
  omega

theorem getLsbD_setBit (v : Byte) (i j : Nat) :
    (setBit v i).getLsbD j = (v.getLsbD j || (decide (j < 8) && decide (j = i))) := by
  simp [setBit, getLsbD_pinMask]

theorem getLsbD_clrBit (v : Byte) (i j : Nat) :
    (clrBit v i).getLsbD j = (v.getLsbD j && !decide (j = i)) := by
  simp only [clrBit, BitVec.getLsbD_and, BitVec.getLsbD_not, getLsbD_pinMask]
  by_cases h : j < 8
  · simp [h]
  · simp [BitVec.getLsbD_of_ge v j (by omega)]

/-- A single-bit write stores its bit in place and keeps the other seven. -/
theorem getLsbD_putBit (v : Byte) (i : Nat) (b : Bool) {j : Nat} (hj : j < 8) :
    (putBit v i b).getLsbD j = if j = i then b else v.getLsbD j := by
  cases b
  · have e : putBit v i false = clrBit v i := rfl
    rw [e, getLsbD_clrBit]
    by_cases h : j = i <;> simp [h]
  · have e : putBit v i true = setBit v i := rfl
    rw [e, getLsbD_setBit]
    by_cases h : j = i <;> simp [h]
    omega

theorem getBit_eq (v : Byte) (i : Nat) : getBit v i = if v.getLsbD i then 0x01#8 else 0x00#8 := by
  apply BitVec.eq_of_getLsbD_eq
  intro j hj
  by_cases e : j = 0
  · subst e; cases h : v.getLsbD i <;> simp [getBit, h]
  · cases h : v.getLsbD i <;> simp [getBit, BitVec.getLsbD_one, e]

theorem getLsbD_byteOfBits (f : Nat → Bool) {i : Nat} (hi : i < 8) : (byteOfBits f).getLsbD i = f i := by
  have h : i = 0 ∨ i = 1 ∨ i = 2 ∨ i = 3 ∨ i = 4 ∨ i = 5 ∨ i = 6 ∨ i = 7 := by omega
  rcases h with rfl | rfl | rfl | rfl | rfl | rfl | rfl | rfl <;>
    exact BitVec.getLsbD_ofBoolListLE

/-- The level of a pin, as 10_state.md R17 states it. -/
theorem getLsbD_levelOf (model : PinModel) (dir out ext : Byte) {i : Nat} (hi : i < 8) :
    (levelOf model dir out ext).getLsbD i =
      if dir.getLsbD i = true ∧ model = .loopback then out.getLsbD i else ext.getLsbD i := by
  rw [levelOf, getLsbD_byteOfBits _ hi]
  simp

@[simp] theorem levelOf_free (dir out ext : Byte) : levelOf .free dir out ext = ext := by
  apply BitVec.eq_of_getLsbD_eq
  intro i hi
  simp [getLsbD_levelOf _ _ _ _ hi]

theorem getLsbD_pullUps (h : Bool) (dir out : Byte) {i : Nat} (hi : i < 8) :
    (pullUps h dir out).getLsbD i = (h && !dir.getLsbD i && out.getLsbD i) := by
  cases h <;> simp [pullUps, hi]

/-- A pin's level in a state. -/
theorem getLsbD_level (s : State) (p : Nat) {i : Nat} (hi : i < 8) :
    (s.level p).getLsbD i =
      if (s.dir p).getLsbD i = true ∧ s.pinModel = .loopback then (s.out p).getLsbD i
      else (s.extNow p).getLsbD i :=
  getLsbD_levelOf _ _ _ _ hi

/-- A pin's pull-up enable in a state. -/
theorem getLsbD_padPu (s : State) (p : Nat) {i : Nat} (hi : i < 8) :
    (s.padPu p).getLsbD i = (Config.hasPullup && !(s.dir p).getLsbD i && (s.out p).getLsbD i) :=
  getLsbD_pullUps _ _ _ hi

end Sys2Proof.Machine
end

