-- ==== Sys2Proof/Laws/Decode.lean ====
section
/-! SUPPORT. The fields of a packed command word, and the bits of the two enumerations. -/

namespace Sys2Proof

@[simp] theorem Direction.toBit_ofBit (b : Bool) : (Direction.ofBit b).toBit = b := by cases b <;> rfl

@[simp] theorem Direction.ofBit_toBit (d : Direction) : Direction.ofBit d.toBit = d := by cases d <;> rfl

theorem Direction.toBit_eq (d : Direction) : d.toBit = decide (d = .output) := by cases d <;> rfl

theorem Level.toBit_eq (l : Level) : l.toBit = decide (l = .high) := by cases l <;> rfl

@[simp] theorem Level.toBit_ofBit (b : Bool) : (Level.ofBit b).toBit = b := by cases b <;> rfl

@[simp] theorem Level.ofBit_toBit (l : Level) : Level.ofBit l.toBit = l := by cases l <;> rfl

theorem getLsbD_packCmd (op port pin data : Byte) (i : Nat) :
    (packCmd op port pin data).getLsbD i =
      if i < 8 then data.getLsbD i
      else if i < 16 then pin.getLsbD (i - 8)
      else if i < 24 then port.getLsbD (i - 16)
      else op.getLsbD (i - 24) := by
  have e : (packCmd op port pin data).getLsbD i = (op ++ port ++ pin ++ data).getLsbD i := rfl
  rw [e, BitVec.getLsbD_append, BitVec.getLsbD_append, BitVec.getLsbD_append, Nat.sub_sub, Nat.sub_sub]
  by_cases h1 : i < 8
  · simp only [h1, if_true]
  · by_cases h2 : i < 16
    · simp only [h1, h2, show i - 8 < 8 by omega, if_true, if_false]
    · by_cases h3 : i < 24
      · simp only [h1, h2, h3, show ¬ i - 8 < 8 by omega, show i - (8 + 8) < 8 by omega, if_true, if_false, Nat.reduceAdd]
      · simp only [h1, h2, h3, show ¬ i - 8 < 8 by omega, show ¬ i - (8 + 8) < 8 by omega, if_false, Nat.reduceAdd]

@[simp] theorem opField_packCmd (op port pin data : Byte) : opField (packCmd op port pin data) = op := by
  apply BitVec.eq_of_getLsbD_eq
  intro i hi
  simp [opField, getLsbD_packCmd, hi, show ¬ 24 + i < 8 by omega, show ¬ 24 + i < 16 by omega]

@[simp] theorem portField_packCmd (op port pin data : Byte) : portField (packCmd op port pin data) = port := by
  apply BitVec.eq_of_getLsbD_eq
  intro i hi
  simp [portField, getLsbD_packCmd, hi, show ¬ 16 + i < 8 by omega, show 16 + i < 24 by omega]

@[simp] theorem pinField_packCmd (op port pin data : Byte) : pinField (packCmd op port pin data) = pin := by
  apply BitVec.eq_of_getLsbD_eq
  intro i hi
  simp [pinField, getLsbD_packCmd, hi, show 8 + i < 16 by omega]

@[simp] theorem dataField_packCmd (op port pin data : Byte) : dataField (packCmd op port pin data) = data := by
  apply BitVec.eq_of_getLsbD_eq
  intro i hi
  simp [dataField, getLsbD_packCmd, hi]

@[simp] theorem dataBit_packCmd (op port pin data : Byte) :
    dataBit (packCmd op port pin data) = data.getLsbD 0 := by
  simp [dataBit]

@[simp] theorem getLsbD_bitData_zero (b : Bool) : (bitData b).getLsbD 0 = b := by cases b <;> rfl

/-- The decoder, on a packed word. -/
theorem decode_packCmd (op port pin data : Byte) :
    decode (packCmd op port pin data) =
      if op.toNat = 0 then .instr (.setupPinDirection port pin (Direction.ofBit (data.getLsbD 0)))
      else if op.toNat = 1 then .instr (.setupPortDirection port data)
      else if op.toNat = 2 then .instr (.readPin port pin)
      else if op.toNat = 3 then .instr (.readPort port)
      else if op.toNat = 4 then .instr (.writePin port pin (Level.ofBit (data.getLsbD 0)))
      else if op.toNat = 5 then .instr (.writePort port data)
      else .reserved op := by
  simp only [decode, opField_packCmd, portField_packCmd, pinField_packCmd, dataField_packCmd, dataBit_packCmd]
  split <;> simp_all

/-- The seven ways a word can decode, with its opcode. -/
theorem decode_cases (cmd : CmdWord) :
    ((opField cmd).toNat = 0 ∧
      decode cmd = .instr (.setupPinDirection (portField cmd) (pinField cmd) (Direction.ofBit (dataBit cmd)))) ∨
    ((opField cmd).toNat = 1 ∧ decode cmd = .instr (.setupPortDirection (portField cmd) (dataField cmd))) ∨
    ((opField cmd).toNat = 2 ∧ decode cmd = .instr (.readPin (portField cmd) (pinField cmd))) ∨
    ((opField cmd).toNat = 3 ∧ decode cmd = .instr (.readPort (portField cmd))) ∨
    ((opField cmd).toNat = 4 ∧
      decode cmd = .instr (.writePin (portField cmd) (pinField cmd) (Level.ofBit (dataBit cmd)))) ∨
    ((opField cmd).toNat = 5 ∧ decode cmd = .instr (.writePort (portField cmd) (dataField cmd))) ∨
    (6 ≤ (opField cmd).toNat ∧ decode cmd = .reserved (opField cmd)) := by
  unfold decode
  split <;> simp_all
  omega

/-- Masking a packed word masks its fields. -/
theorem packCmd_and (a b c d a' b' c' d' : Byte) :
    packCmd a b c d &&& packCmd a' b' c' d' = packCmd (a &&& a') (b &&& b') (c &&& c') (d &&& d') := by
  apply BitVec.eq_of_getLsbD_eq
  intro i _
  rw [BitVec.getLsbD_and]
  simp only [getLsbD_packCmd, BitVec.getLsbD_and]
  split_ifs <;> rfl

/-- Every word is the packing of its own four fields. -/
theorem packCmd_fields (w : CmdWord) : packCmd (opField w) (portField w) (pinField w) (dataField w) = w := by
  apply BitVec.eq_of_getLsbD_eq
  intro i hi
  rw [getLsbD_packCmd]
  split
  · simp [dataField, *]
  · split
    · simp [pinField, show i - 8 < 8 by omega, show 8 + (i - 8) = i by omega]
    · split
      · simp [portField, show i - 16 < 8 by omega, show 16 + (i - 16) = i by omega]
      · simp [opField, show i - 24 < 8 by omega, show 24 + (i - 24) = i by omega]

end Sys2Proof
end

