-- ==== Sys2Proof/Laws/State.lean ====
section
/-! SUPPORT. One lemma for each field under each state update, so that no proof unfolds a record update. -/

namespace Sys2Proof.Machine

@[simp] theorem ports_regWrite (s : State) (p : Nat) (k : StoredKind) (v : Byte) :
    (s.regWrite p k v).ports = s.ports.modify p fun r => r.put k v := rfl
@[simp] theorem pinModel_regWrite (s : State) (p : Nat) (k : StoredKind) (v : Byte) :
    (s.regWrite p k v).pinModel = s.pinModel := rfl
@[simp] theorem rmwAtomic_regWrite (s : State) (p : Nat) (k : StoredKind) (v : Byte) :
    (s.regWrite p k v).rmwAtomic = s.rmwAtomic := rfl
@[simp] theorem requesters_regWrite (s : State) (p : Nat) (k : StoredKind) (v : Byte) :
    (s.regWrite p k v).requesters = s.requesters := rfl
@[simp] theorem schedule_regWrite (s : State) (p : Nat) (k : StoredKind) (v : Byte) :
    (s.regWrite p k v).schedule = s.schedule := rfl
@[simp] theorem rsp_regWrite (s : State) (p : Nat) (k : StoredKind) (v : Byte) :
    (s.regWrite p k v).rsp = s.rsp := rfl
@[simp] theorem instant_regWrite (s : State) (p : Nat) (k : StoredKind) (v : Byte) :
    (s.regWrite p k v).instant = s.instant := rfl

@[simp] theorem ports_setExt (s : State) (p : Nat) (e : ExtLevel) :
    (s.setExt p e).ports = s.ports.modify p fun r => { r with ext := e } := rfl
@[simp] theorem pinModel_setExt (s : State) (p : Nat) (e : ExtLevel) :
    (s.setExt p e).pinModel = s.pinModel := rfl
@[simp] theorem rmwAtomic_setExt (s : State) (p : Nat) (e : ExtLevel) :
    (s.setExt p e).rmwAtomic = s.rmwAtomic := rfl
@[simp] theorem requesters_setExt (s : State) (p : Nat) (e : ExtLevel) :
    (s.setExt p e).requesters = s.requesters := rfl
@[simp] theorem schedule_setExt (s : State) (p : Nat) (e : ExtLevel) :
    (s.setExt p e).schedule = s.schedule := rfl
@[simp] theorem rsp_setExt (s : State) (p : Nat) (e : ExtLevel) :
    (s.setExt p e).rsp = s.rsp := rfl
@[simp] theorem instant_setExt (s : State) (p : Nat) (e : ExtLevel) :
    (s.setExt p e).instant = s.instant := rfl

@[simp] theorem ports_tick (s : State) :
    s.tick.ports = s.ports := rfl
@[simp] theorem pinModel_tick (s : State) :
    s.tick.pinModel = s.pinModel := rfl
@[simp] theorem rmwAtomic_tick (s : State) :
    s.tick.rmwAtomic = s.rmwAtomic := rfl
@[simp] theorem requesters_tick (s : State) :
    s.tick.requesters = s.requesters := rfl
@[simp] theorem schedule_tick (s : State) :
    s.tick.schedule = s.schedule := rfl
@[simp] theorem rsp_tick (s : State) :
    s.tick.rsp = s.rsp := rfl
@[simp] theorem instant_tick (s : State) :
    s.tick.instant = s.instant + 1 := rfl

@[simp] theorem ports_respond (s : State) (r : Response) :
    (s.respond r).ports = s.ports := rfl
@[simp] theorem pinModel_respond (s : State) (r : Response) :
    (s.respond r).pinModel = s.pinModel := rfl
@[simp] theorem rmwAtomic_respond (s : State) (r : Response) :
    (s.respond r).rmwAtomic = s.rmwAtomic := rfl
@[simp] theorem requesters_respond (s : State) (r : Response) :
    (s.respond r).requesters = s.requesters := rfl
@[simp] theorem schedule_respond (s : State) (r : Response) :
    (s.respond r).schedule = s.schedule := rfl
@[simp] theorem rsp_respond (s : State) (r : Response) :
    (s.respond r).rsp = r := rfl
@[simp] theorem instant_respond (s : State) (r : Response) :
    (s.respond r).instant = s.instant + 1 := rfl

@[simp] theorem ports_complete (s : State) (r : Nat) :
    (s.complete r).ports = s.ports := rfl
@[simp] theorem pinModel_complete (s : State) (r : Nat) :
    (s.complete r).pinModel = s.pinModel := rfl
@[simp] theorem rmwAtomic_complete (s : State) (r : Nat) :
    (s.complete r).rmwAtomic = s.rmwAtomic := rfl
@[simp] theorem requesters_complete (s : State) (r : Nat) :
    (s.complete r).requesters =
    s.requesters.modify r fun q =>
      { q with index := q.index + 1, inFlight := none, responses := q.responses ++ [s.rsp] } := rfl
@[simp] theorem schedule_complete (s : State) (r : Nat) :
    (s.complete r).schedule = s.schedule := rfl
@[simp] theorem rsp_complete (s : State) (r : Nat) :
    (s.complete r).rsp = s.rsp := rfl
@[simp] theorem instant_complete (s : State) (r : Nat) :
    (s.complete r).instant = s.instant := rfl

@[simp] theorem ports_hold (s : State) (r : Nat) (f : InFlight) :
    (s.hold r f).ports = s.ports := rfl
@[simp] theorem pinModel_hold (s : State) (r : Nat) (f : InFlight) :
    (s.hold r f).pinModel = s.pinModel := rfl
@[simp] theorem rmwAtomic_hold (s : State) (r : Nat) (f : InFlight) :
    (s.hold r f).rmwAtomic = s.rmwAtomic := rfl
@[simp] theorem requesters_hold (s : State) (r : Nat) (f : InFlight) :
    (s.hold r f).requesters = s.requesters.modify r fun q => { q with inFlight := some f } := rfl
@[simp] theorem schedule_hold (s : State) (r : Nat) (f : InFlight) :
    (s.hold r f).schedule = s.schedule := rfl
@[simp] theorem rsp_hold (s : State) (r : Nat) (f : InFlight) :
    (s.hold r f).rsp = s.rsp := rfl
@[simp] theorem instant_hold (s : State) (r : Nat) (f : InFlight) :
    (s.hold r f).instant = s.instant + 1 := rfl

@[simp] theorem ports_load (s : State) (ps : List (List CmdWord)) (ts : List Turn) :
    (s.load ps ts).ports = s.ports := rfl
@[simp] theorem pinModel_load (s : State) (ps : List (List CmdWord)) (ts : List Turn) :
    (s.load ps ts).pinModel = s.pinModel := rfl
@[simp] theorem rmwAtomic_load (s : State) (ps : List (List CmdWord)) (ts : List Turn) :
    (s.load ps ts).rmwAtomic = s.rmwAtomic := rfl
@[simp] theorem requesters_load (s : State) (ps : List (List CmdWord)) (ts : List Turn) :
    (s.load ps ts).requesters = ps.map Requester.fresh := rfl
@[simp] theorem schedule_load (s : State) (ps : List (List CmdWord)) (ts : List Turn) :
    (s.load ps ts).schedule = ts := rfl
@[simp] theorem rsp_load (s : State) (ps : List (List CmdWord)) (ts : List Turn) :
    (s.load ps ts).rsp = s.rsp := rfl
@[simp] theorem instant_load (s : State) (ps : List (List CmdWord)) (ts : List Turn) :
    (s.load ps ts).instant = s.instant := rfl

@[simp] theorem ports_withFetchWord (s : State) (nbits w : Nat) :
    (s.withFetchWord nbits w).ports = s.ports := rfl
@[simp] theorem pinModel_withFetchWord (s : State) (nbits w : Nat) :
    (s.withFetchWord nbits w).pinModel = s.pinModel := rfl
@[simp] theorem rmwAtomic_withFetchWord (s : State) (nbits w : Nat) :
    (s.withFetchWord nbits w).rmwAtomic = s.rmwAtomic := rfl
@[simp] theorem requesters_withFetchWord (s : State) (nbits w : Nat) :
    (s.withFetchWord nbits w).requesters = s.requesters.modify 0 fun q => q.present (tableWord nbits w) := rfl
@[simp] theorem schedule_withFetchWord (s : State) (nbits w : Nat) :
    (s.withFetchWord nbits w).schedule = .requester 0 :: s.schedule := rfl
@[simp] theorem rsp_withFetchWord (s : State) (nbits w : Nat) :
    (s.withFetchWord nbits w).rsp = s.rsp := rfl
@[simp] theorem instant_withFetchWord (s : State) (nbits w : Nat) :
    (s.withFetchWord nbits w).instant = s.instant := rfl

end Sys2Proof.Machine
end

