-- ==== Sys2Proof/Laws/Ops.lean ====
section
/-! SUPPORT. What each shared operation does to the triples: one lemma per operation, cited by every later proof. -/

namespace Sys2Proof.Machine

@[simp] theorem numPorts_regWrite (s : State) (p : Nat) (k : StoredKind) (v : Byte) :
    (s.regWrite p k v).numPorts = s.numPorts := by simp [State.numPorts]

@[simp] theorem numPorts_setExt (s : State) (p : Nat) (e : ExtLevel) :
    (s.setExt p e).numPorts = s.numPorts := by simp [State.numPorts]

@[simp] theorem numPorts_respond (s : State) (r : Response) : (s.respond r).numPorts = s.numPorts := rfl

@[simp] theorem port_respond (s : State) (r : Response) (p : Nat) : (s.respond r).port p = s.port p := rfl

@[simp] theorem stored_respond (s : State) (r : Response) (p : Nat) (k : StoredKind) :
    (s.respond r).stored p k = s.stored p k := by cases k <;> rfl

theorem validPort_iff (s : State) (port : Byte) : validPort s port = true ↔ port.toNat < s.numPorts := by
  simp [validPort]

theorem validPin_iff (pin : Byte) : validPin pin = true ↔ pin.toNat < 8 := by
  simp [validPin]

theorem validPortPin_iff (s : State) (port pin : Byte) :
    validPortPin s port pin = true ↔ port.toNat < s.numPorts ∧ pin.toNat < 8 := by
  simp [validPortPin, validPort_iff, validPin_iff]

/-- The triples after a register write: the addressed one, where it exists, has its register replaced. -/
theorem port_regWrite (s : State) (p : Nat) (k : StoredKind) (v : Byte) (p' : Nat) :
    (s.regWrite p k v).port p' = if p' = p ∧ p < s.numPorts then (s.port p).put k v else s.port p' := by
  simp only [State.port, State.numPorts, ports_regWrite, List.getD_eq_getElem?_getD, List.getElem?_modify]
  by_cases e : p' = p
  · subst e
    by_cases h : p' < s.ports.length <;> simp [h]
  · simp [e, Ne.symm e]

/-- The triples after an environment step: the addressed one, where it exists, has its external level replaced. -/
theorem port_setExt (s : State) (p : Nat) (e : ExtLevel) (p' : Nat) :
    (s.setExt p e).port p' = if p' = p ∧ p < s.numPorts then { s.port p with ext := e } else s.port p' := by
  simp only [State.port, State.numPorts, ports_setExt, List.getD_eq_getElem?_getD, List.getElem?_modify]
  by_cases e' : p' = p
  · subst e'
    by_cases h : p' < s.ports.length <;> simp [h]
  · simp [e', Ne.symm e']

/-- Read after write, for the stored registers. -/
theorem stored_regWrite (s : State) (p : Nat) (k : StoredKind) (v : Byte) (p' : Nat) (k' : StoredKind) :
    (s.regWrite p k v).stored p' k' = if p' = p ∧ k' = k ∧ p < s.numPorts then v else s.stored p' k' := by
  cases k <;> cases k' <;>
    simp only [State.stored, StoredKind.toKind, State.regRead, State.dir, State.out, port_regWrite] <;>
    split <;> simp_all [PortRegs.put]

@[simp] theorem ext_regWrite (s : State) (p : Nat) (k : StoredKind) (v : Byte) (p' : Nat) :
    ((s.regWrite p k v).port p').ext = (s.port p').ext := by
  rw [port_regWrite]
  cases k <;> split <;> simp_all [PortRegs.put]

@[simp] theorem stored_setExt (s : State) (p : Nat) (e : ExtLevel) (p' : Nat) (k : StoredKind) :
    (s.setExt p e).stored p' k = s.stored p' k := by
  cases k <;>
    simp only [State.stored, StoredKind.toKind, State.regRead, State.dir, State.out, port_setExt] <;>
    split <;> simp_all

theorem surroundingsKept_respond (s : State) (r : Response) : SurroundingsKept s (s.respond r) :=
  ⟨rfl, fun _ => rfl, rfl, rfl, rfl, rfl⟩

theorem surroundingsKept_write_respond (s : State) (p : Nat) (k : StoredKind) (v : Byte) (r : Response) :
    SurroundingsKept s ((s.regWrite p k v).respond r) :=
  ⟨by simp, fun _ => by simp, rfl, rfl, rfl, rfl⟩

/-- What a single-bit write does where its identifiers are valid. -/
theorem bitWrite_valid (s : State) (k : StoredKind) (port pin : Byte) (b : Bool) (h : validPortPin s port pin = true) :
    s.bitWrite k port pin b =
      (s.regWrite port.toNat k (putBit (s.stored port.toNat k) pin.toNat b)).respond .none := by
  simp [State.bitWrite, h, State.finishBitWrite, State.beginBitWrite, State.stored]

theorem bitWrite_invalid (s : State) (k : StoredKind) (port pin : Byte) (b : Bool) (h : validPortPin s port pin = false) :
    s.bitWrite k port pin b = s.respond .none := by
  simp [State.bitWrite, h]

theorem byteWrite_valid (s : State) (k : StoredKind) (port v : Byte) (h : validPort s port = true) :
    s.byteWrite k port v = (s.regWrite port.toNat k v).respond .none := by
  simp [State.byteWrite, h]

theorem byteWrite_invalid (s : State) (k : StoredKind) (port v : Byte) (h : validPort s port = false) :
    s.byteWrite k port v = s.respond .none := by
  simp [State.byteWrite, h]

end Sys2Proof.Machine
end

