-- ==== Sys2Proof/Laws/Exec.lean ====
section
/-! SUPPORT. What a command can do: `exec` and `runWord` always answer a next state, and one lemma says all of what that state is. -/

namespace Sys2Proof.Machine

/-- The state after an operation, as a function. -/
def after (i : Instr) (s : State) : State :=
  match exec i s with
  | .next t => t
  | .fault _ => s
  | .refused _ => s

/-- Every operation completes. -/
theorem exec_eq (i : Instr) (s : State) : exec i s = .next (after i s) := by cases i <;> rfl

/-- The state after a command word, as a function. -/
def afterWord (cmd : CmdWord) (s : State) : State :=
  match decode cmd with
  | .instr i => after i s
  | .reserved _ => s.respond .none

/-- Every command word completes. -/
theorem runWord_eq (cmd : CmdWord) (s : State) : runWord cmd s = .next (afterWord cmd s) := by
  unfold runWord afterWord
  cases decode cmd
  · exact exec_eq _ s
  · rfl

theorem runWord_of_instr {cmd : CmdWord} {i : Instr} (h : decode cmd = .instr i) (s : State) :
    runWord cmd s = exec i s := by simp [runWord, h]

theorem bitWrite_cases (s : State) (k : StoredKind) (port pin : Byte) (b : Bool) :
    (validPortPin s port pin = true ∧ s.bitWrite k port pin b =
      (s.regWrite port.toNat k (putBit (s.stored port.toNat k) pin.toNat b)).respond .none) ∨
    (validPortPin s port pin = false ∧ s.bitWrite k port pin b = s.respond .none) := by
  cases h : validPortPin s port pin
  · exact .inr ⟨rfl, bitWrite_invalid s k port pin b h⟩
  · exact .inl ⟨rfl, bitWrite_valid s k port pin b h⟩

theorem byteWrite_cases (s : State) (k : StoredKind) (port v : Byte) :
    (validPort s port = true ∧ s.byteWrite k port v = (s.regWrite port.toNat k v).respond .none) ∨
    (validPort s port = false ∧ s.byteWrite k port v = s.respond .none) := by
  cases h : validPort s port
  · exact .inr ⟨rfl, byteWrite_invalid s k port v h⟩
  · exact .inl ⟨rfl, byteWrite_valid s k port v h⟩

/-- The byte an operation stores where its identifiers are valid. -/
def storedByte (i : Instr) (s : State) : Byte :=
  match i with
  | .setupPinDirection port pin d => putBit (s.dir port.toNat) pin.toNat d.toBit
  | .setupPortDirection _ mask => mask
  | .readPin _ _ => 0#8
  | .readPort _ => 0#8
  | .writePin port pin l => putBit (s.out port.toNat) pin.toNat l.toBit
  | .writePort _ v => v

/-- The response of an operation. -/
def responseOf (i : Instr) (s : State) : Response :=
  match i with
  | .setupPinDirection _ _ _ => .none
  | .setupPortDirection _ _ => .none
  | .readPin port pin => s.pinResponse port pin
  | .readPort port => s.portResponse port
  | .writePin _ _ _ => .none
  | .writePort _ _ => .none

/-- All that an operation can do: respond, after at most one register write, which it makes where its identifiers are valid. -/
theorem after_cases (i : Instr) (s : State) :
    (∃ k port, writeTarget i = some (k, port) ∧ operandsValid s i = true ∧ port.toNat < s.numPorts ∧
      after i s = (s.regWrite port.toNat k (storedByte i s)).respond (responseOf i s)) ∨
    ((writeTarget i = none ∨ operandsValid s i = false) ∧ after i s = s.respond (responseOf i s)) := by
  cases i with
  | setupPinDirection port pin d =>
    rcases bitWrite_cases s .dir port pin d.toBit with ⟨h, e⟩ | ⟨h, e⟩
    · exact .inl ⟨.dir, port, rfl, h, ((validPortPin_iff s port pin).mp h).1, e⟩
    · exact .inr ⟨.inr h, e⟩
  | setupPortDirection port mask =>
    rcases byteWrite_cases s .dir port mask with ⟨h, e⟩ | ⟨h, e⟩
    · exact .inl ⟨.dir, port, rfl, h, (validPort_iff s port).mp h, e⟩
    · exact .inr ⟨.inr h, e⟩
  | readPin port pin => exact .inr ⟨.inl rfl, rfl⟩
  | readPort port => exact .inr ⟨.inl rfl, rfl⟩
  | writePin port pin l =>
    rcases bitWrite_cases s .out port pin l.toBit with ⟨h, e⟩ | ⟨h, e⟩
    · exact .inl ⟨.out, port, rfl, h, ((validPortPin_iff s port pin).mp h).1, e⟩
    · exact .inr ⟨.inr h, e⟩
  | writePort port v =>
    rcases byteWrite_cases s .out port v with ⟨h, e⟩ | ⟨h, e⟩
    · exact .inl ⟨.out, port, rfl, h, (validPort_iff s port).mp h, e⟩
    · exact .inr ⟨.inr h, e⟩

theorem surroundingsKept_after (i : Instr) (s : State) : SurroundingsKept s (after i s) := by
  rcases after_cases i s with ⟨k, port, -, -, -, e⟩ | ⟨-, e⟩ <;> rw [e]
  · exact surroundingsKept_write_respond ..
  · exact surroundingsKept_respond ..

@[simp] theorem rsp_after (i : Instr) (s : State) : (after i s).rsp = responseOf i s := by
  rcases after_cases i s with ⟨k, port, -, -, -, e⟩ | ⟨-, e⟩ <;> rw [e] <;> rfl

/-- The stored registers after an operation. -/
theorem stored_after (i : Instr) (s : State) (p : Nat) (k : StoredKind) :
    (after i s).stored p k =
      if ∃ port, writeTarget i = some (k, port) ∧ port.toNat = p ∧ operandsValid s i = true then storedByte i s
      else s.stored p k := by
  rcases after_cases i s with ⟨k', port, hw, hv, hp, e⟩ | ⟨h, e⟩
  · rw [e, stored_respond, stored_regWrite]
    simp only [hw, hv, hp, Option.some.injEq, Prod.mk.injEq]
    by_cases c : p = port.toNat ∧ k = k'
    · obtain ⟨rfl, rfl⟩ := c
      simp
    · rw [if_neg (by tauto), if_neg]
      rintro ⟨port', ⟨rfl, rfl⟩, rfl, -⟩
      exact c ⟨rfl, rfl⟩
  · rw [e, stored_respond, if_neg]
    rintro ⟨port, hw, -, hv⟩
    rcases h with h | h
    · rw [h] at hw; cases hw
    · rw [h] at hv; cases hv

/-- `DIR` after an operation that writes it. -/
theorem dir_after_of_target {i : Instr} {s : State} {port : Byte} (hw : writeTarget i = some (.dir, port))
    (hv : operandsValid s i = true) : (after i s).dir port.toNat = storedByte i s := by
  have h := stored_after i s port.toNat .dir
  rwa [if_pos ⟨port, hw, rfl, hv⟩] at h

/-- `OUT` after an operation that writes it. -/
theorem out_after_of_target {i : Instr} {s : State} {port : Byte} (hw : writeTarget i = some (.out, port))
    (hv : operandsValid s i = true) : (after i s).out port.toNat = storedByte i s := by
  have h := stored_after i s port.toNat .out
  rwa [if_pos ⟨port, hw, rfl, hv⟩] at h

/-- A register of a kind an operation does not write. -/
theorem stored_after_of_other_kind {i : Instr} (s : State) {k : StoredKind} (h : ∀ port, writeTarget i ≠ some (k, port))
    (p : Nat) : (after i s).stored p k = s.stored p k := by
  rw [stored_after, if_neg]
  rintro ⟨port, hw, -, -⟩
  exact h port hw

theorem otherRegistersKept_after {i : Instr} (s : State) {k : StoredKind} {port : Byte}
    (h : writeTarget i = some (k, port)) : OtherRegistersKept s (after i s) port.toNat k := by
  intro p' k' hn
  rw [stored_after, if_neg]
  rintro ⟨q, hq, rfl, -⟩
  rw [h] at hq
  cases hq
  exact hn ⟨rfl, rfl⟩

/-- With an invalid identifier an operation leaves the triples alone. -/
theorem ports_after_of_invalid {i : Instr} {s : State} (h : operandsValid s i = false) :
    (after i s).ports = s.ports := by
  rcases after_cases i s with ⟨k', port, hw, hv, hp, e⟩ | ⟨-, e⟩
  · rw [h] at hv; cases hv
  · rw [e]; rfl

/-- A read leaves the triples alone. -/
theorem ports_after_of_read {i : Instr} {s : State} (h : writeTarget i = none) : (after i s).ports = s.ports := by
  rcases after_cases i s with ⟨k', port, hw, hv, hp, e⟩ | ⟨-, e⟩
  · rw [h] at hw; cases hw
  · rw [e]; rfl

@[simp] theorem numPorts_after (i : Instr) (s : State) : (after i s).numPorts = s.numPorts :=
  (surroundingsKept_after i s).numPorts

/-- A list of operations runs to its end. -/
theorem execAll_next (l : List Instr) (s : State) : ∃ t, execAll l s = .next t ∧ t.numPorts = s.numPorts := by
  induction l generalizing s with
  | nil => exact ⟨s, rfl, rfl⟩
  | cons i l ih =>
    obtain ⟨t, h, e⟩ := ih (after i s)
    exact ⟨t, by simpa [execAll, exec_eq] using h, e.trans (numPorts_after i s)⟩

theorem execAll_append {l : List Instr} (l' : List Instr) {s t : State} (h : execAll l s = .next t) :
    execAll (l ++ l') s = execAll l' t := by
  induction l generalizing s with
  | nil => cases h; rfl
  | cons i l ih =>
    simp only [List.cons_append, execAll, exec_eq] at h ⊢
    exact ih h

end Sys2Proof.Machine
end

