-- ==== Sys2Proof/Laws/PerInstr.lean ====
section
/-! SUPPORT. Facts about every operation as syntax, one lemma per constructor. -/

namespace Sys2Proof.Laws.CanonicalWord

/-- The canonical word of an operation carries the operation's opcode, and zeros in every bit the operation ignores
(30_encoding.md R53, R60). -/
def Statement (i : Instr) : Prop :=
  opField (encode i) = i.opcode ∧ encode i &&& ~~~ i.usedBits = 0#32

theorem mask_zero (op port pin data : Byte) (u : CmdWord) (a b c : Byte) (hu : ~~~ u = packCmd 0x00#8 a b c)
    (ha : port &&& a = 0#8) (hb : pin &&& b = 0#8) (hc : data &&& c = 0#8) :
    packCmd op port pin data &&& ~~~ u = 0#32 := by
  rw [hu, packCmd_and, ha, hb, hc, BitVec.and_zero]
  decide

theorem setupPinDirection (port pin : Byte) (d : Direction) : Statement (.setupPinDirection port pin d) :=
  ⟨opField_packCmd .., mask_zero _ _ _ _ _ 0x00#8 0x00#8 0xFE#8 (by simp only [Instr.usedBits]; decide) (by simp) (by simp) (by cases d <;> decide)⟩

theorem setupPortDirection (port mask : Byte) : Statement (.setupPortDirection port mask) :=
  ⟨opField_packCmd .., mask_zero _ _ _ _ _ 0x00#8 0xFF#8 0x00#8 (by simp only [Instr.usedBits]; decide) (by simp) (by simp) (by simp)⟩

theorem readPin (port pin : Byte) : Statement (.readPin port pin) :=
  ⟨opField_packCmd .., mask_zero _ _ _ _ _ 0x00#8 0x00#8 0xFF#8 (by simp only [Instr.usedBits]; decide) (by simp) (by simp) (by simp)⟩

theorem readPort (port : Byte) : Statement (.readPort port) :=
  ⟨opField_packCmd .., mask_zero _ _ _ _ _ 0x00#8 0xFF#8 0xFF#8 (by simp only [Instr.usedBits]; decide) (by simp) (by simp) (by simp)⟩

theorem writePin (port pin : Byte) (l : Level) : Statement (.writePin port pin l) :=
  ⟨opField_packCmd .., mask_zero _ _ _ _ _ 0x00#8 0x00#8 0xFE#8 (by simp only [Instr.usedBits]; decide) (by simp) (by simp) (by cases l <;> decide)⟩

theorem writePort (port value : Byte) : Statement (.writePort port value) :=
  ⟨opField_packCmd .., mask_zero _ _ _ _ _ 0x00#8 0xFF#8 0x00#8 (by simp only [Instr.usedBits]; decide) (by simp) (by simp) (by simp)⟩

end Sys2Proof.Laws.CanonicalWord
end

