-- ==== Sys2Proof/Laws/Step.lean ====
section
/-! SUPPORT. What a step can do: the turn it takes, and all that the turn can answer. -/

namespace Sys2Proof.Machine

theorem legal_iff (s : State) :
    s.legal = true ↔ 1 ≤ s.numPorts ∧ s.numPorts ≤ 256 ∧ 1 ≤ s.requesters.length := by
  simp only [State.legal, State.numRequesters, Bool.and_eq_true, decide_eq_true_eq, and_assoc]

theorem splits_iff (s : State) : s.splits = true ↔ s.rmwAtomic = false ∧ 1 < s.requesters.length := by
  simp only [State.splits, State.numRequesters, Bool.and_eq_true, decide_eq_true_eq, Bool.not_eq_true']

theorem legal_congr {s t : State} (hp : t.numPorts = s.numPorts) (hr : t.requesters.length = s.requesters.length) :
    t.legal = s.legal := by simp only [State.legal, State.numRequesters, hp, hr]

theorem splits_congr {s t : State} (ha : t.rmwAtomic = s.rmwAtomic) (hr : t.requesters.length = s.requesters.length) :
    t.splits = s.splits := by simp only [State.splits, State.numRequesters, ha, hr]

/-- Changing the requester found at an index is putting its changed self there. -/
theorem modify_eq_set {l : List Requester} {r : Nat} {q : Requester} (h : l[r]? = some q) (f : Requester → Requester) :
    l.modify r f = l.set r (f q) := by
  apply List.ext_getElem?
  intro i
  rw [List.getElem?_modify, List.getElem?_set]
  by_cases e : r = i
  · subst e
    obtain ⟨hlt, hq⟩ := List.getElem?_eq_some_iff.mp h
    simp [hlt, hq]
  · simp [e]

theorem step_of_legal {s : State} (h : s.legal = true) : step s = advance s := by simp [step, h]

theorem advance_of_schedule {s : State} {t : Turn} {rest : List Turn} (h : s.schedule = t :: rest) :
    advance s = takeTurn t { s with schedule := rest } := by
  simp [advance, State.nextTurn, h]

theorem advance_of_no_schedule {s : State} (h : s.schedule = []) :
    advance s = match s.freeTurn with
      | none => .next s
      | some t => takeTurn t s := by
  unfold advance State.nextTurn
  rw [h]
  cases s.freeTurn <;> rfl

/-- The state in which a turn is taken differs from the state before the step in its schedule alone. -/
theorem nextTurn_state (s : State) : s.nextTurn.2 = { s with schedule := s.schedule.tail } := by
  unfold State.nextTurn
  cases h : s.schedule with
  | nil =>
    have e : ([] : List Turn).tail = s.schedule := h.symm
    rw [e]
  | cons t rest => rfl

theorem mem_busyRequesters (s : State) (r : Nat) :
    r ∈ s.busyRequesters ↔ ∃ q, s.requesters[r]? = some q ∧ q.busy = true := by
  simp only [State.busyRequesters, List.mem_filter, List.mem_range]
  constructor
  · rintro ⟨hr, hb⟩
    exact ⟨s.requesters[r], by simp [hr], by simpa [hr] using hb⟩
  · rintro ⟨q, hq, hb⟩
    exact ⟨(List.getElem?_eq_some_iff.mp hq).1, by simp [hq, hb]⟩

/-- An open turn is a waiting requester's, and there is none exactly where the run has ended. -/
theorem freeTurn_cases (s : State) :
    (s.busyRequesters = [] ∧ s.freeTurn = none) ∨
    ∃ r, r ∈ s.busyRequesters ∧ s.freeTurn = some (.requester r) := by
  unfold State.freeTurn
  split
  · exact .inl ⟨by assumption, rfl⟩
  · rename_i r h
    exact .inr ⟨r, by simp [h], rfl⟩
  · rename_i h0 _
    refine .inr ⟨_, ?_, rfl⟩
    have hl : 0 < s.busyRequesters.length := List.length_pos_iff.mpr h0
    rw [List.getD_eq_getElem?_getD, List.getElem?_eq_getElem (Nat.mod_lt _ hl)]
    exact List.getElem_mem _

/-- All that one turn of a requester can do: nothing, the write half it owes, a read half, or a whole command. -/
theorem requesterTurn_cases (r : Nat) (s : State) :
    (s.requesters[r]? = none ∧ requesterTurn r s = .next s) ∨
    ∃ q, s.requesters[r]? = some q ∧
      ((∃ f, q.inFlight = some f ∧ requesterTurn r s = .next ((s.finishBitWrite f).complete r)) ∨
       (q.inFlight = none ∧ q.nextWord = none ∧ requesterTurn r s = .next s) ∨
       (∃ cmd f, q.inFlight = none ∧ q.nextWord = some cmd ∧ s.splitStart cmd = some f ∧
          requesterTurn r s = .next (s.hold r f)) ∨
       (∃ cmd, q.inFlight = none ∧ q.nextWord = some cmd ∧ s.splitStart cmd = none ∧
          requesterTurn r s = .next ((afterWord cmd s).complete r))) := by
  unfold requesterTurn
  cases hq : s.requesters[r]? with
  | none => exact .inl ⟨rfl, rfl⟩
  | some q =>
    refine .inr ⟨q, rfl, ?_⟩
    cases hf : q.inFlight with
    | some f => exact .inl ⟨f, rfl, by simp [hf]⟩
    | none =>
      cases hw : q.nextWord with
      | none => exact .inr (.inl ⟨rfl, rfl, by simp [hf, hw]⟩)
      | some cmd =>
        cases hs : s.splitStart cmd with
        | some f => exact .inr (.inr (.inl ⟨cmd, f, rfl, rfl, hs, by simp [hf, hw, hs]⟩))
        | none => exact .inr (.inr (.inr ⟨cmd, rfl, rfl, hs, by simp [hf, hw, hs, runWord_eq, mapNext]⟩))

/-- When a word starts a split operation, and what it holds then. -/
theorem splitStart_eq_some {s : State} {cmd : CmdWord} {f : InFlight} (h : s.splitStart cmd = some f) :
    ∃ i, decode cmd = .instr i ∧ bitTarget i = some (f.kind, f.port, f.pin, f.value) ∧ s.splits = true ∧
      validPortPin s f.port f.pin = true ∧ f.t = s.stored f.port.toNat f.kind := by
  unfold State.splitStart at h
  cases hd : decode cmd with
  | reserved op => simp [hd] at h
  | instr i =>
    cases hb : bitTarget i with
    | none => simp [hd, hb] at h
    | some x =>
      obtain ⟨k, port, pin, b⟩ := x
      simp only [hd, hb] at h
      split at h
      · rename_i hc
        simp only [Bool.and_eq_true] at hc
        cases h
        exact ⟨i, rfl, hb, hc.1, hc.2, rfl⟩
      · cases h

theorem splitStart_eq_none_of_not_splits {s : State} (h : s.splits = false) (cmd : CmdWord) :
    s.splitStart cmd = none := by
  cases e : s.splitStart cmd with
  | none => rfl
  | some f => obtain ⟨i, -, -, hs, -⟩ := splitStart_eq_some e; rw [h] at hs; cases hs

/-- The write half of a single-bit operation touches its own register alone. -/
theorem surroundingsKept_finishBitWrite (s : State) (f : InFlight) : SurroundingsKept s (s.finishBitWrite f) :=
  surroundingsKept_write_respond ..

theorem stored_finishBitWrite (s : State) (f : InFlight) (p : Nat) (k : StoredKind) :
    (s.finishBitWrite f).stored p k =
      if p = f.port.toNat ∧ k = f.kind ∧ f.port.toNat < s.numPorts then putBit f.t f.pin.toNat f.value
      else s.stored p k := by
  simp [State.finishBitWrite, stored_regWrite]

theorem surroundingsKept_afterWord (cmd : CmdWord) (s : State) : SurroundingsKept s (afterWord cmd s) := by
  unfold afterWord
  cases decode cmd
  · exact surroundingsKept_after ..
  · exact surroundingsKept_respond ..

@[simp] theorem stored_complete (s : State) (r p : Nat) (k : StoredKind) :
    (s.complete r).stored p k = s.stored p k := by cases k <;> rfl

@[simp] theorem stored_hold (s : State) (r p : Nat) (f : InFlight) (k : StoredKind) :
    (s.hold r f).stored p k = s.stored p k := by cases k <;> rfl

@[simp] theorem stored_schedule (s : State) (ts : List Turn) (p : Nat) (k : StoredKind) :
    ({ s with schedule := ts } : State).stored p k = s.stored p k := by cases k <;> rfl

/-- A run whose first step answers `t` goes on from `t`. -/
theorem run_succ_of_step {s t : State} (h : step s = .next t) (n : Nat) :
    Host.Core.run Sys2Proof.core (n + 1) s = Host.Core.run Sys2Proof.core n t := by
  have e : Sys2Proof.core.step s = .next t := h
  simp only [Host.Core.run, e]

end Sys2Proof.Machine
end

