-- ==== Sys2Proof/Tests/Slice0.lean ====
section
/-! SUPPORT. The model's own tests. Expected values are those of spec/95_test_vectors.md and of the worked encodings of
30_encoding.md section 7, named beside each test; then the witnesses of the statements' hypotheses. -/

namespace Sys2Proof.Tests

open Sys2Proof.Machine

/-! ## Ill-formed calls are refused, one for each check of Call.wellFormed -/

theorem test_wf_setupPinDirection_port : (Call.setupPinDirection 256 0 .input).wellFormed = false := by decide
theorem test_wf_setupPinDirection_pin : (Call.setupPinDirection 0 256 .input).wellFormed = false := by decide
theorem test_wf_setupPortDirection_port : (Call.setupPortDirection 256 0).wellFormed = false := by decide
theorem test_wf_setupPortDirection_mask : (Call.setupPortDirection 0 256).wellFormed = false := by decide
theorem test_wf_readPin_port : (Call.readPin 256 0).wellFormed = false := by decide
theorem test_wf_readPin_pin : (Call.readPin 0 256).wellFormed = false := by decide
theorem test_wf_readPort_port : (Call.readPort 256).wellFormed = false := by decide
theorem test_wf_writePin_port : (Call.writePin 256 0 .low).wellFormed = false := by decide
theorem test_wf_writePin_pin : (Call.writePin 0 256 .low).wellFormed = false := by decide
theorem test_wf_writePort_port : (Call.writePort 256 0).wellFormed = false := by decide
theorem test_wf_writePort_value : (Call.writePort 0 256).wellFormed = false := by decide

/-- Identifiers out of range are well-formed (30_encoding.md R58). -/
theorem test_wf_out_of_range_identifiers : (Call.setupPinDirection 255 255 .output).wellFormed = true := by decide

/-! ## Decoding, words written out bit by bit from the patterns of 30_encoding.md R53 -/

theorem test_decode_setupPinDirection :
    decode 0b00000000_00000011_00000111_00000001#32 = .instr (.setupPinDirection 3#8 7#8 .output) := by decide
/-- V-DIR7b: `DATA[7:1]` ignored. -/
theorem test_decode_setupPinDirection_ignored :
    decode 0x000201FE#32 = .instr (.setupPinDirection 2#8 1#8 .input) := by decide
theorem test_decode_setupPortDirection :
    decode 0b00000001_00000010_00001001_11101110#32 = .instr (.setupPortDirection 2#8 0xEE#8) := by decide
theorem test_decode_readPin :
    decode 0b00000010_00000000_00000011_11111111#32 = .instr (.readPin 0#8 3#8) := by decide
theorem test_decode_readPort :
    decode 0b00000011_00000000_11001000_01110111#32 = .instr (.readPort 0#8) := by decide
/-- V-E2. -/
theorem test_decode_writePin :
    decode 0b00000100_00000000_00000011_11111111#32 = .instr (.writePin 0#8 3#8 .high) := by decide
theorem test_decode_writePort :
    decode 0b00000101_00000011_00001001_01011010#32 = .instr (.writePort 3#8 0x5A#8) := by decide
/-- V-E4, V-E6. -/
theorem test_decode_reserved :
    decode 0x06000000#32 = .reserved 0x06#8 ∧ decode 0xFFFFFFFF#32 = .reserved 0xFF#8 := by decide
/-- V-E3, V-E7 and the worked encodings. -/
theorem test_encode :
    encode (.setupPinDirection 0#8 3#8 .output) = 0x00000301#32 ∧ encode (.setupPortDirection 3#8 0x81#8) = 0x01030081#32 ∧
    encode (.readPin 0#8 8#8) = 0x02000800#32 ∧ encode (.readPort 0#8) = 0x03000000#32 ∧
    encode (.writePin 0#8 5#8 .high) = 0x04000501#32 ∧ encode (.writePort 4#8 0xAA#8) = 0x050400AA#32 := by decide
theorem test_decodeTableWord :
    decodeTableWord 32 0x00030700 = some (.setupPinDirection 3#8 7#8 .input) ∧
    decodeTableWord 32 0x06000000 = none := by decide

/-! ## Assembler text (the worked encodings, 30_encoding.md section 7) -/

theorem test_assemble_writePin : assemble "writePin(A, 3, High)" = some 0x04000301#32 := by decide
theorem test_assemble_setupPortDirection : assemble "setupPortDirection(B, AllOutput)" = some 0x010100FF#32 := by decide
theorem test_assemble_literals :
    assemble "setupPinDirection(D, 0b0000_0111, Input)" = some 0x00030700#32 ∧
    assemble "writePort(4, 0xAA)" = some 0x050400AA#32 ∧ assemble "readPort(256)" = none := by decide

/-! ## One step of each operation -/

/-- The reset state with one port set up: the environment holds `e` on its pins. -/
def block (p : Nat) (d o e : Byte) : State :=
  { State.reset with ports := State.reset.ports.set p { dir := d, out := o, ext := .held e } }

/-- `DIR`, `OUT` of a port and the response, where the outcome is a next state. -/
def look (p : Nat) : Host.Outcome State Fault Refusal → Option (Byte × Byte × Response)
  | .next t => some (t.dir p, t.out p, t.rsp)
  | _ => none

/-- V-DIR3. -/
theorem test_setupPinDirection_clears :
    look 3 (exec (.setupPinDirection 3#8 7#8 .input) (block 3 0xFF#8 0x00#8 0x00#8)) =
      some (0x7F#8, 0x00#8, .none) := by decide
/-- V-DIR11. -/
theorem test_setupPinDirection_pin8 :
    look 0 (exec (.setupPinDirection 0#8 8#8 .output) (block 0 0x3C#8 0x00#8 0x00#8)) =
      some (0x3C#8, 0x00#8, .none) := by decide
/-- V-DIR14. -/
theorem test_setupPortDirection_replaces :
    look 1 (exec (.setupPortDirection 1#8 0x0F#8) (block 1 0x5A#8 0x33#8 0x00#8)) =
      some (0x0F#8, 0x33#8, .none) := by decide
/-- V-DIR8, as a word. -/
theorem test_setupPortDirection_ignores_pin :
    look 2 (runWord 0x010209EE#32 (block 2 0x11#8 0x00#8 0x00#8)) = some (0xEE#8, 0x00#8, .none) := by decide
/-- V-RD6: an output pin driven low reads 0 though the outside is high. -/
theorem test_readPin_output :
    look 2 (exec (.readPin 2#8 4#8) (block 2 0x10#8 0x00#8 0x10#8)) = some (0x10#8, 0x00#8, .byte 0x00#8) := by decide
/-- V-RD6, the other pin model. -/
theorem test_readPin_free :
    look 2 (exec (.readPin 2#8 4#8) { block 2 0x10#8 0x00#8 0x10#8 with pinModel := .free }) =
      some (0x10#8, 0x00#8, .byte 0x01#8) := by decide
/-- V-RD12. -/
theorem test_readPort_mixed :
    look 3 (exec (.readPort 3#8) (block 3 0xF0#8 0xA5#8 0x3C#8)) = some (0xF0#8, 0xA5#8, .byte 0xAC#8) := by decide
/-- V-RD16. -/
theorem test_readPort_sentinel :
    look 0 (exec (.readPort 4#8) (block 0 0x00#8 0x00#8 0xFF#8)) = some (0x00#8, 0x00#8, .byte 0x00#8) := by decide
/-- V-WR2, the document's example. -/
theorem test_writePin_keeps_others :
    look 0 (exec (.writePin 0#8 5#8 .high) (block 0 0x00#8 0x08#8 0x00#8)) = some (0x00#8, 0x28#8, .none) := by decide
/-- V-WR7b, as a word. -/
theorem test_writePin_ignores_data :
    look 1 (runWord 0x040101FE#32 (block 1 0xFF#8 0x12#8 0x00#8)) = some (0xFF#8, 0x10#8, .none) := by decide
/-- V-WR14. -/
theorem test_writePort_mixed :
    look 2 (exec (.writePort 2#8 0xA5#8) (block 2 0x0F#8 0x00#8 0x00#8)) = some (0x0F#8, 0xA5#8, .none) := by decide
/-- V-WR15. -/
theorem test_writePort_port4 :
    look 0 (exec (.writePort 4#8 0xFF#8) (block 0 0x00#8 0x3C#8 0x00#8)) = some (0x00#8, 0x3C#8, .none) := by decide
/-- V-X4. -/
theorem test_reserved :
    look 0 (runWord 0xFF0003FF#32 (block 0 0x12#8 0x34#8 0x00#8)) = some (0x12#8, 0x34#8, .none) := by decide

/-- V-WR7: the pull-up enable of an input pin, for either hardware (10_state.md R19). -/
theorem test_pullUps :
    pullUps true 0x00#8 0x40#8 = 0x40#8 ∧ pullUps false 0x00#8 0x40#8 = 0x00#8 ∧ pullUps true 0x40#8 0x40#8 = 0x00#8 := by
  decide

/-! ## Steps -/

/-- The word placed after reset is the one the next step runs, for a word of each row (log 2). -/
theorem test_step_after_reset :
    ([0x00000301, 0x010100FF, 0x02000300, 0x03030000, 0x04000301, 0x050000FF].map fun w =>
      match step (State.reset.withFetchWord 32 w) with
      | .next t => t.requesters.map Requester.index
      | _ => []) = [[1], [1], [1], [1], [1], [1]] := by decide

/-- P5: two requesters with `writePin(A, 0, High)` and `writePin(A, 1, High)`. -/
def twoRequesters (turns : List Turn) : State :=
  { block 0 0xFF#8 0x00#8 0x00#8 with
    requesters := [Requester.fresh [0x04000001#32], Requester.fresh [0x04000101#32]]
    schedule := turns }

/-- P5, access `Mr`: the read half holds the stale byte and writes nothing. -/
theorem test_split_read_half :
    (match step (twoRequesters [.requester 0]) with
      | .next t => (t.out 0, t.requesters.map Requester.inFlight)
      | _ => (0xAA#8, [])) =
    (0x00#8, [some { kind := .out, port := 0#8, pin := 0#8, value := true, t := 0x00#8 }, none]) := by decide

/-- P5, access `Mw` after `Iw` made `OUT[0] = 02`: the stale byte wins. -/
theorem test_split_write_half :
    (match step { twoRequesters [.requester 0] with
        ports := (block 0 0xFF#8 0x02#8 0x00#8).ports
        requesters := [{ Requester.fresh [0x04000001#32] with
          inFlight := some { kind := .out, port := 0#8, pin := 0#8, value := true, t := 0x00#8 } },
          Requester.fresh [0x04000101#32]] } with
      | .next t => t.out 0
      | _ => 0xAA#8) = 0x01#8 := by decide

/-- A run that has ended stays as it is (log 10). -/
theorem test_idle_step : (match step State.reset with | .next t => decide (t = State.reset) | _ => false) = true := by decide

/-- U4: an access outside the six operations is refused. -/
theorem test_direct_access_refused :
    (match step { State.reset with schedule := [.directAccess 0 .inp (some 0xFF#8)] } with
      | .refused r => decide (r = .accessOutsideOperations)
      | _ => false) = true := by decide

/-! ## Witnesses: a state and operands that meet the hypotheses of each statement -/

theorem witness_valid_identifiers_at_the_boundary :
    (3#8 : Byte).toNat < State.reset.numPorts ∧ (7#8 : Byte).toNat < 8 ∧ State.reset.pinModel = .loopback := by decide
theorem witness_invalid_port_and_pin_at_the_boundary :
    ¬ (4#8 : Byte).toNat < State.reset.numPorts ∧ ¬ (8#8 : Byte).toNat < 8 ∧ (0#8 : Byte).toNat < State.reset.numPorts := by
  decide

theorem witness_SetupPinDirectionChangesOneDirectionBit :
    (twoRequesters []).splits = true ∧ (3#8 : Byte).toNat < (twoRequesters []).numPorts ∧ (7#8 : Byte).toNat < 8 ∧
    (twoRequesters []).pinModel = .loopback := by decide
theorem witness_WritePinChangesOneOutputBit :
    (twoRequesters []).splits = true ∧ (0#8 : Byte).toNat < (twoRequesters []).numPorts ∧ (7#8 : Byte).toNat < 8 ∧
    (twoRequesters []).pinModel = .loopback ∧ ((twoRequesters []).dir 0).getLsbD 7 = true := by decide
theorem witness_SetupPortDirectionReplacesDirection :
    (3#8 : Byte).toNat < State.reset.numPorts ∧ ¬ (4#8 : Byte).toNat < State.reset.numPorts := by decide
theorem witness_WritePortReplacesOutput :
    (3#8 : Byte).toNat < State.reset.numPorts ∧ ¬ (4#8 : Byte).toNat < State.reset.numPorts := by decide
theorem witness_PinOperationsMergeAndPortOperationsReplace :
    (3#8 : Byte).toNat < State.reset.numPorts ∧ (7#8 : Byte).toNat < 8 := by decide
theorem witness_ReadPinReturnsThePinLevel_free :
    (3#8 : Byte).toNat < ({ State.reset with pinModel := .free } : State).numPorts ∧ (7#8 : Byte).toNat < 8 ∧
    ({ State.reset with pinModel := .free } : State).pinModel = .free := by decide
theorem witness_ReadPortReturnsTheLevels :
    (3#8 : Byte).toNat < State.reset.numPorts ∧ ¬ (4#8 : Byte).toNat < State.reset.numPorts := by decide
theorem witness_InvalidReadLooksLikeALowLevel :
    ¬ ((0#8 : Byte).toNat < State.reset.numPorts ∧ (8#8 : Byte).toNat < 8) ∧
    ((block 3 0xFF#8 0x7F#8 0xFF#8).level 3).getLsbD 7 = false ∧ State.reset.numPorts ≤ (4#8 : Byte).toNat ∧
    (block 3 0xFF#8 0x00#8 0xFF#8).level 3 = 0x00#8 := by decide
theorem witness_WritingAnInputPinOnlyStoresTheBit :
    (3#8 : Byte).toNat < State.reset.numPorts ∧ (7#8 : Byte).toNat < 8 ∧ (State.reset.dir 3).getLsbD 7 = false := by decide
theorem witness_HighThenLowClearsTheBit :
    (3#8 : Byte).toNat < State.reset.numPorts ∧ (7#8 : Byte).toNat < 8 := by decide
theorem witness_InvalidIdentifierIsASilentNoOp :
    ¬ (4#8 : Byte).toNat < State.reset.numPorts ∧ ¬ (8#8 : Byte).toNat < 8 := by decide
theorem witness_ReservedOpcodeIsASilentNoOp :
    6 ≤ (opField 0x06000000#32).toNat ∧ ¬ 6 ≤ (opField 0x05FFFFFF#32).toNat := by decide
theorem witness_ResponseShapeFollowsTheOpcode :
    (opField 0x02040800#32).toNat = 2 ∧ ¬ (portField 0x02040800#32).toNat < State.reset.numPorts ∧
    ¬ (pinField 0x02040800#32).toNat < 8 ∧ (opField 0x03FF0000#32).toNat = 3 := by decide
/-- Bit numbers at both ends of 0..7, a byte with the bit set and one with it clear, and identifiers on both sides of each bound. -/
theorem witness_BitLaws :
    0 < 8 ∧ 7 < 8 ∧ 7 ≠ 0 ∧ (0x80#8 : Byte).getLsbD 7 = true ∧ (0x7F#8 : Byte).getLsbD 7 = false ∧
    (3#8 : Byte).toNat < State.reset.numPorts ∧ ¬ (255#8 : Byte).toNat < State.reset.numPorts ∧
    (7#8 : Byte).toNat < 8 ∧ ¬ (8#8 : Byte).toNat < 8 := by decide
theorem witness_CommandsAreIndependentAndIdempotent :
    (match runWord 0x03030000#32 State.reset with
      | .next t => (match runWord 0x03030000#32 t with | .next _ => true | _ => false)
      | _ => false) = true := by decide
theorem witness_CommandsAreIndependent_same_level :
    (match runWord 0x03030000#32 (block 3 0x0F#8 0x5A#8 0x3C#8) with
      | .next t => decide (t.level 3 = (block 3 0x0F#8 0x5A#8 0x3C#8).level 3)
      | _ => false) = true := by decide
theorem witness_DirectionAndOutputDoNotInterfere :
    writeTarget (.writePin 3#8 7#8 .high) = some (.out, 3#8) ∧
    writeTarget (.setupPinDirection 3#8 7#8 .output) = some (.dir, 3#8) ∧ writeTarget (.readPort 3#8) = none := by decide
theorem witness_RegWriteReplacesOneRegister : 3 < State.reset.numPorts := by decide
theorem witness_PadBusesFollowTheRegisters :
    (match exec (.writePort 3#8 0xFF#8) State.reset with | .next _ => true | _ => false) = true := by decide
theorem witness_ReadBackHasNoDelay :
    (3#8 : Byte).toNat < (block 3 0xFF#8 0x00#8 0x00#8).numPorts ∧ (block 3 0xFF#8 0x00#8 0x00#8).pinModel = .loopback ∧
    ((block 3 0xFF#8 0x00#8 0x00#8).dir 3).getLsbD 7 = true := by decide
theorem witness_PinComesUpAtTheHeldLevel :
    (3#8 : Byte).toNat < State.reset.numPorts ∧ (7#8 : Byte).toNat < 8 ∧ State.reset.pinModel = .loopback := by decide
theorem witness_DecodeAndEncodeAgree :
    decode 0x050300FF#32 = .instr (.writePort 3#8 0xFF#8) ∧
    0x050300FF#32 &&& ~~~ (Instr.writePort 3#8 0xFF#8).usedBits = 0#32 := by decide
theorem witness_IgnoredFieldsHaveNoEffect :
    decode 0x03000000#32 = .instr (.readPort 0#8) ∧
    0x0300C877#32 &&& (Instr.readPort 0#8).usedBits = 0x03000000#32 &&& (Instr.readPort 0#8).usedBits := by decide
theorem witness_RegisterNumbersNameTheirRegisters : 3 < State.reset.numPorts ∧ csrNum 3 .inp = 14 := by decide

/-- One requester with one word left. -/
def oneRequester (cmd : CmdWord) : State := State.reset.load [[cmd]] []

theorem witness_StepRunsTheDecodedInstruction_scheduled :
    (twoRequesters [.requester 1]).legal = true ∧
    (twoRequesters [.requester 1]).schedule = [.requester 1] ∧
    (twoRequesters [.requester 1]).requesters[1]? = some (Requester.fresh [0x04000101#32]) ∧
    (Requester.fresh [0x04000101#32]).inFlight = none ∧
    (Requester.fresh [0x04000101#32]).nextWord = some 0x04000101#32 ∧
    decode 0x04000101#32 = .instr (.writePin 0#8 1#8 .high) ∧
    ({ twoRequesters [.requester 1] with rmwAtomic := true } : State).splits = false ∧
    bitTarget (.writePort 0#8 0xF0#8) = none ∧
    operandsValid (twoRequesters [.requester 1]) (.writePin 4#8 1#8 .high) = false := by decide
theorem witness_StepRunsTheDecodedInstruction_unscheduled :
    (oneRequester 0x04030701#32).legal = true ∧ (oneRequester 0x04030701#32).schedule = [] ∧
    (oneRequester 0x04030701#32).requesters = [Requester.fresh [0x04030701#32]] ∧
    (Requester.fresh [0x04030701#32]).inFlight = none ∧
    (Requester.fresh [0x04030701#32]).nextWord = some 0x04030701#32 ∧
    decode 0x04030701#32 = .instr (.writePin 3#8 7#8 .high) := by decide
theorem witness_StepRunsTheDecodedInstruction_reserved :
    (Requester.fresh [0x06000000#32]).nextWord = some 0x06000000#32 ∧ decode 0x06000000#32 = .reserved 0x06#8 := by decide
theorem witness_PlacedWordRunsNext :
    State.reset.legal = true ∧ State.reset.splits = false ∧
    decodeTableWord 32 0x04030701 = some (.writePin 3#8 7#8 .high) := by decide
theorem witness_OneRequesterRunsOneCommandPerStep :
    (oneRequester 0x04030701#32).legal = true ∧ (oneRequester 0x04030701#32).schedule = [] ∧
    (oneRequester 0x04030701#32).requesters = [Requester.fresh [0x04030701#32]] ∧
    (Requester.fresh [0x04030701#32]).inFlight = none ∧
    (Requester.fresh [0x04030701#32]).nextWord = some 0x04030701#32 := by decide
theorem witness_NoOpShowsInTheResponseOnly :
    (oneRequester 0x02040800#32).legal = true ∧ (oneRequester 0x02040800#32).schedule = [] ∧
    (Requester.fresh [0x02040800#32]).inFlight = none ∧
    (Requester.fresh [0x02040800#32]).nextWord = some 0x02040800#32 ∧
    (oneRequester 0x02040800#32).requesters = [Requester.fresh [0x02040800#32]] ∧
    decode 0x02040800#32 = .instr (.readPin 4#8 8#8) ∧
    operandsValid (oneRequester 0x02040800#32) (.readPin 4#8 8#8) = false := by decide
theorem witness_SplitOperationReadsThenWrites :
    (twoRequesters [.requester 0]).legal = true ∧ (twoRequesters [.requester 0]).splits = true ∧
    (twoRequesters [.requester 0]).requesters[0]? = some (Requester.fresh [0x04000001#32]) ∧
    (twoRequesters [.requester 0]).schedule = [.requester 0] ∧
    (Requester.fresh [0x04000001#32]).inFlight = none ∧
    (Requester.fresh [0x04000001#32]).nextWord = some 0x04000001#32 ∧
    decode 0x04000001#32 = .instr (.writePin 0#8 0#8 .high) ∧
    bitTarget (.writePin 0#8 0#8 .high) = some (.out, 0#8, 0#8, true) ∧
    (0#8 : Byte).toNat < (twoRequesters [.requester 0]).numPorts ∧ (0#8 : Byte).toNat < 8 := by decide
theorem witness_SplitOperationReadsThenWrites_write_half :
    (match step (twoRequesters [.requester 0, .requester 0]) with
      | .next t => (t.legal, t.schedule, (t.requesters.map Requester.inFlight).map Option.isSome)
      | _ => (false, [], [])) = (true, [.requester 0], [true, false]) := by decide
theorem witness_InterleavedPinWritesLoseAnUpdate :
    (twoRequesters [.requester 0, .requester 1, .requester 1, .requester 0]).legal = true ∧
    (twoRequesters []).rmwAtomic = false ∧
    (twoRequesters []).requesters = [Requester.fresh [0x04000001#32], Requester.fresh [0x04000101#32]] ∧
    (Requester.fresh [0x04000001#32]).inFlight = none ∧ (Requester.fresh [0x04000101#32]).inFlight = none ∧
    (Requester.fresh [0x04000001#32]).nextWord = some (encode (.writePin 0#8 0#8 .high)) ∧
    (Requester.fresh [0x04000101#32]).nextWord = some (encode (.writePin 0#8 1#8 .high)) ∧
    (0#8 : Byte).toNat < (twoRequesters []).numPorts ∧ (0#8 : Byte).toNat < 8 ∧ (1#8 : Byte).toNat < 8 ∧ (0#8 : Byte) ≠ 1#8 ∧
    (twoRequesters [.requester 0, .requester 0, .requester 1, .requester 1]).legal = true ∧
    ({ twoRequesters [.requester 0, .requester 1] with rmwAtomic := true } : State).legal = true := by decide
theorem witness_EnvironmentChangesOnlyTheExternalLevel :
    ({ State.reset with schedule := [.environment 3 (.held 0xFF#8)] } : State).legal = true ∧ 3 < State.reset.numPorts := by
  decide
theorem witness_OnlyMutatingCommandsChangeRegisters :
    (match step (oneRequester 0x050300FF#32) with
      | .next t => decide (t.stored 3 .out ≠ (oneRequester 0x050300FF#32).stored 3 .out)
      | _ => false) = true := by decide
theorem witness_TheBlockNeverFaultsOrSticks :
    State.reset.legal = true ∧ ∀ t, State.reset.schedule.head? = some t → t.ordinary = true :=
  ⟨by decide, fun _ h => by cases h⟩
theorem witness_OnlyTheModelBoundaryIsRefused :
    ({ State.reset with ports := [] } : State).numPorts < 1 ∧
    256 < ({ State.reset with ports := List.replicate 257 { dir := 0#8, out := 0#8, ext := .draw } } : State).numPorts ∧
    ({ State.reset with requesters := [] } : State).requesters = [] ∧
    ({ State.reset with schedule := [.directAccess 0 .inp none] } : State).legal = true :=
  ⟨by decide, by rw [State.numPorts, List.length_replicate]; decide, rfl, by decide⟩
theorem witness_PowerOnSetsTheRegisters :
    3 < Config.reference.numPorts ∧ Config.reference.resetDir 3 = 0x00#8 := by decide
theorem witness_PowerOnIsSound :
    1 ≤ Config.reference.numPorts ∧ Config.reference.numPorts ≤ 256 ∧ 1 ≤ Config.reference.nReq := by decide

/-- The invariant of the run statements holds of a loaded run, which takes a step. -/
theorem sound_oneRequester (cmd : CmdWord) : (oneRequester cmd).Sound := by
  refine ⟨rfl, fun q hq => ?_⟩
  have e : q = Requester.fresh [cmd] := by simpa [oneRequester, State.load] using hq
  subst e
  exact ⟨by simp [Requester.fresh], rfl, by simp [Requester.fresh], by simp [Requester.fresh]⟩

theorem witness_StepKeepsSoundness :
    (oneRequester 0x050300FF#32).Sound ∧
    (match step (oneRequester 0x050300FF#32) with | .next _ => true | _ => false) = true :=
  ⟨sound_oneRequester _, by decide⟩
theorem witness_EveryRunOfFiniteListsEnds :
    (oneRequester 0x050300FF#32).Sound ∧ ∀ t ∈ (oneRequester 0x050300FF#32).schedule, t.ordinary = true :=
  ⟨sound_oneRequester _, fun _ h => by cases h⟩

end Sys2Proof.Tests
end

section
/-! The family 10_state.md: what a port's registers read, what they hold at power-on, and who changes them. -/

namespace Sys2Proof.Machine

/-! ### The level of an all-input port, and power-on -/

theorem level_of_dir_zero {s : State} {p : Nat} (h : s.dir p = 0x00#8) : s.level p = s.extNow p := by
  apply BitVec.eq_of_getLsbD_eq
  intro i hi
  simp [getLsbD_level s p hi, h]

@[simp] theorem numPorts_powerOn (c : Config) : (State.powerOn c).numPorts = c.numPorts := by
  simp [State.numPorts, State.powerOn]

theorem port_powerOn (c : Config) {p : Nat} (hp : p < c.numPorts) :
    (State.powerOn c).port p = { dir := c.resetDir p, out := c.resetOut p, ext := .draw } := by
  simp [State.port, State.powerOn, hp]

theorem dir_powerOn (c : Config) {p : Nat} (hp : p < c.numPorts) : (State.powerOn c).dir p = c.resetDir p := by
  rw [State.dir, port_powerOn c hp]

theorem out_powerOn (c : Config) {p : Nat} (hp : p < c.numPorts) : (State.powerOn c).out p = c.resetOut p := by
  rw [State.out, port_powerOn c hp]

theorem padPu_powerOn (c : Config) {p : Nat} (hp : p < c.numPorts) :
    (State.powerOn c).padPu p = pullUps Config.hasPullup (c.resetDir p) (c.resetOut p) := by
  rw [State.padPu, dir_powerOn c hp, out_powerOn c hp]

/-! ### Who changes a stored register -/

/-- The command word is a mutating operation on the register `k` of port `p`, with valid identifiers (10_state.md R16, R24). -/
def WordWrites (s : State) (cmd : CmdWord) (p : Nat) (k : StoredKind) : Prop :=
  ∃ i port, decode cmd = .instr i ∧ writeTarget i = some (k, port) ∧ port.toNat = p ∧ operandsValid s i = true

/-- A requester's next turn is a write of the register `k` of port `p`: the half-done operation it owes is on that register, or
the word it presents is a mutating operation on it. -/
def RequesterWrites (s : State) (q : Requester) (p : Nat) (k : StoredKind) : Prop :=
  (∃ f, q.inFlight = some f ∧ f.kind = k ∧ f.port.toNat = p) ∨
    (q.inFlight = none ∧ ∃ cmd, q.nextWord = some cmd ∧ WordWrites s cmd p k)

theorem operandsValid_schedule (s : State) (ts : List Turn) (i : Instr) :
    operandsValid { s with schedule := ts } i = operandsValid s i := by cases i <;> rfl

/-- What a requester's turn writes does not depend on the turns to come. -/
theorem requesterWrites_schedule (s : State) (ts : List Turn) (q : Requester) (p : Nat) (k : StoredKind) :
    RequesterWrites { s with schedule := ts } q p k ↔ RequesterWrites s q p k := by
  simp only [RequesterWrites, WordWrites, operandsValid_schedule]

theorem wordWrites_of_stored_afterWord_ne {cmd : CmdWord} {s : State} {p : Nat} {k : StoredKind}
    (h : (afterWord cmd s).stored p k ≠ s.stored p k) : WordWrites s cmd p k := by
  cases hd : decode cmd with
  | reserved op =>
    have e : afterWord cmd s = s.respond .none := by simp [afterWord, hd]
    exact absurd (by rw [e, stored_respond]) h
  | instr i =>
    have e : afterWord cmd s = after i s := by simp [afterWord, hd]
    rw [e, stored_after] at h
    by_cases hw : ∃ port, writeTarget i = some (k, port) ∧ port.toNat = p ∧ operandsValid s i = true
    · obtain ⟨port, hport⟩ := hw
      exact ⟨i, port, hd, hport⟩
    · exact absurd (if_neg hw) h

theorem target_of_stored_finishBitWrite_ne {s : State} {f : InFlight} {p : Nat} {k : StoredKind}
    (h : (s.finishBitWrite f).stored p k ≠ s.stored p k) : f.kind = k ∧ f.port.toNat = p := by
  rw [stored_finishBitWrite] at h
  by_cases hc : p = f.port.toNat ∧ k = f.kind ∧ f.port.toNat < s.numPorts
  · exact ⟨hc.2.1.symm, hc.1.symm⟩
  · exact absurd (if_neg hc) h

theorem requesterWrites_of_requesterTurn {r : Nat} {s t : State} {p : Nat} {k : StoredKind}
    (h : requesterTurn r s = .next t) (hne : t.stored p k ≠ s.stored p k) :
    ∃ q, s.requesters[r]? = some q ∧ RequesterWrites s q p k := by
  rcases requesterTurn_cases r s with ⟨-, e⟩ | ⟨q, hq, hturn⟩
  · rw [e] at h; cases h
    exact absurd rfl hne
  · refine ⟨q, hq, ?_⟩
    rcases hturn with ⟨f, hf, e⟩ | ⟨-, -, e⟩ | ⟨cmd, f, -, -, -, e⟩ | ⟨cmd, hf, hw, -, e⟩ <;> rw [e] at h <;> cases h
    · rw [stored_complete] at hne
      exact .inl ⟨f, hf, target_of_stored_finishBitWrite_ne hne⟩
    · exact absurd rfl hne
    · exact absurd (stored_hold ..) hne
    · rw [stored_complete] at hne
      exact .inr ⟨hf, cmd, hw, wordWrites_of_stored_afterWord_ne hne⟩

theorem requesterWrites_of_takeTurn {turn : Turn} {s t : State} {p : Nat} {k : StoredKind}
    (h : takeTurn turn s = .next t) (hne : t.stored p k ≠ s.stored p k) :
    ∃ r q, turn = .requester r ∧ s.requesters[r]? = some q ∧ RequesterWrites s q p k := by
  cases turn with
  | requester r =>
    obtain ⟨q, hq, hw⟩ := requesterWrites_of_requesterTurn h hne
    exact ⟨r, q, rfl, hq, hw⟩
  | environment p' e =>
    cases h
    exact absurd (stored_setExt ..) hne
  | directAccess p' k' w => cases h

/-- A step to a next state takes the next turn, or none where the run has ended. -/
theorem step_next_cases {s t : State} (h : step s = .next t) :
    (s.nextTurn.1 = none ∧ t = { s with schedule := s.schedule.tail }) ∨
    ∃ turn, s.nextTurn.1 = some turn ∧ takeTurn turn { s with schedule := s.schedule.tail } = .next t := by
  have hl : s.legal = true := by
    by_contra hl
    simp [step, hl] at h
  rw [step_of_legal hl, advance] at h
  rw [← nextTurn_state]
  rcases hn : s.nextTurn with ⟨_ | turn, s'⟩ <;> rw [hn] at h
  · cases h
    exact .inl ⟨rfl, rfl⟩
  · exact .inr ⟨turn, rfl, h⟩

theorem requesterWrites_of_step {s t : State} {p : Nat} {k : StoredKind}
    (h : step s = .next t) (hne : t.stored p k ≠ s.stored p k) :
    ∃ r q, s.nextTurn.1 = some (.requester r) ∧ s.requesters[r]? = some q ∧ RequesterWrites s q p k := by
  rcases step_next_cases h with ⟨-, rfl⟩ | ⟨turn, hn, ht⟩
  · exact absurd (stored_schedule ..) hne
  · rw [← stored_schedule s s.schedule.tail] at hne
    obtain ⟨r, q, rfl, hq, hw⟩ := requesterWrites_of_takeTurn ht hne
    exact ⟨r, q, hn, hq, (requesterWrites_schedule ..).mp hw⟩

/-- Settles O36: of all that a step can do, only the write half and the valid mutating command change a stored register. -/
theorem onlyMutatingCommandsChangeRegisters : Obligations.OnlyMutatingCommandsChangeRegisters := by
  intro s t p k h hne
  obtain ⟨r, q, hn, hq, hw⟩ := requesterWrites_of_step h hne
  refine ⟨r, q, hn, hq, ?_⟩
  rcases hw with hf | ⟨hf, cmd, hcmd, i, port, hd, ht, hp, hv⟩
  · exact .inl hf
  · exact .inr ⟨hf, cmd, i, port, hcmd, hd, ht, hp, hv⟩

/-- Settles O7, by the level of a pin. -/
theorem inputRegisterReadsThePinLevel : Obligations.InputRegisterReadsThePinLevel :=
  fun s p _ hi => getLsbD_level s p hi

/-- Settles O39, by the triple that power-on gives each port. -/
theorem powerOnSetsTheRegisters : Obligations.PowerOnSetsTheRegisters := by
  refine ⟨fun c p hp => ?_, numPorts_powerOn, fun _ => ⟨rfl, rfl⟩⟩
  have hdir := dir_powerOn c hp
  have hout := out_powerOn c hp
  exact ⟨hdir, hout, hdir, hout, padPu_powerOn c hp, fun h0 => level_of_dir_zero (hdir.trans h0)⟩

end Sys2Proof.Machine
end

section
/-! The family 20_memory.md: a register write, the environment's move, and the one requester's commands. -/

namespace Sys2Proof.Machine

/-! ### One requester -/

theorem splits_of_one_requester {s : State} {q : Requester} (h : s.requesters = [q]) : s.splits = false := by
  simp [State.splits, State.numRequesters, h]

/-- Where one requester is alone and has something left to do, the open turn is its own. -/
theorem freeTurn_of_one_requester {s : State} {q : Requester} (h : s.requesters = [q]) (hb : q.busy = true) :
    s.freeTurn = some (.requester 0) := by
  have hmem : 0 ∈ s.busyRequesters := (mem_busyRequesters s 0).mpr ⟨q, by simp [h], hb⟩
  rcases freeTurn_cases s with ⟨hnone, -⟩ | ⟨r, hr, hturn⟩
  · rw [hnone] at hmem
    cases hmem
  · obtain ⟨q', hq', -⟩ := (mem_busyRequesters s r).mp hr
    have hlt : r < s.requesters.length := (List.getElem?_eq_some_iff.mp hq').1
    have h0 : r = 0 := by simpa [h] using hlt
    rw [hturn, h0]

/-- The turn of a requester whose next word starts no split operation is that whole command. -/
theorem requesterTurn_of_unsplit {r : Nat} {s : State} {q : Requester} {cmd : CmdWord} (hq : s.requesters[r]? = some q)
    (hf : q.inFlight = none) (hw : q.nextWord = some cmd) (hs : s.splitStart cmd = none) :
    requesterTurn r s = .next ((afterWord cmd s).complete r) := by
  simp [requesterTurn, hq, hf, hw, hs, runWord_eq, mapNext]

/-- The step of a lone requester that has a word to present is the whole command (20_memory.md R40). -/
theorem step_of_one_requester {s : State} {q : Requester} {cmd : CmdWord} (hl : s.legal = true) (ht : s.schedule = [])
    (hr : s.requesters = [q]) (hf : q.inFlight = none) (hw : q.nextWord = some cmd) :
    step s = .next ((afterWord cmd s).complete 0) := by
  have hturn : s.freeTurn = some (.requester 0) :=
    freeTurn_of_one_requester hr (by simp [Requester.busy, hw])
  have hs : s.splitStart cmd = none := splitStart_eq_none_of_not_splits (splits_of_one_requester hr) cmd
  rw [step_of_legal hl, advance_of_no_schedule ht, hturn]
  exact requesterTurn_of_unsplit (by simp [hr]) hf hw hs

/-- Settles O31: the step is the whole command, and completing it moves on the requester, which no command touches. -/
theorem oneRequesterRunsOneCommandPerStep : Obligations.OneRequesterRunsOneCommandPerStep := by
  intro s q cmd hl ht hr hf hw
  have hkept := surroundingsKept_afterWord cmd s
  refine ⟨afterWord cmd s, (afterWord cmd s).complete 0, runWord_eq .., step_of_one_requester hl ht hr hf hw,
    rfl, rfl, hkept.schedule.trans ht, ?_⟩
  simp [hkept.requesters, hr, hf]

/-! ### A register write -/

theorem surroundingsKept_regWrite (s : State) (p : Nat) (k : StoredKind) (v : Byte) :
    SurroundingsKept s (s.regWrite p k v) :=
  ⟨numPorts_regWrite .., ext_regWrite s p k v, rfl, rfl, rfl, rfl⟩

theorem otherRegistersKept_regWrite (s : State) (p : Nat) (k : StoredKind) (v : Byte) :
    OtherRegistersKept s (s.regWrite p k v) p k := by
  intro p' k' hne
  rw [stored_regWrite, if_neg]
  rintro ⟨rfl, rfl, -⟩
  exact hne ⟨rfl, rfl⟩

/-- Settles O19, by read after write and the frame of a register write. -/
theorem regWriteReplacesOneRegister : Obligations.RegWriteReplacesOneRegister := by
  intro s p k v hp
  have hread : (s.regWrite p k v).stored p k = v := by rw [stored_regWrite, if_pos ⟨rfl, rfl, hp⟩]
  exact ⟨hread, otherRegistersKept_regWrite s p k v, surroundingsKept_regWrite .., rfl⟩

/-! ### The environment's move -/

theorem ext_setExt (s : State) (p : Nat) (e : ExtLevel) (p' : Nat) :
    ((s.setExt p e).port p').ext = if p' = p ∧ p < s.numPorts then e else (s.port p').ext := by
  rw [port_setExt]
  split <;> rfl

theorem extNow_setExt_held {s : State} {p : Nat} (v : Byte) (hp : p < s.numPorts) :
    (s.setExt p (.held v)).extNow p = v := by
  simp [State.extNow, ext_setExt, hp]

/-- An input pin, and every pin of the model without loopback, reads the external level (10_state.md R17). -/
theorem getLsbD_level_of_external {s : State} {p i : Nat} (hi : i < 8)
    (h : (s.dir p).getLsbD i = false ∨ s.pinModel = .free) : (s.level p).getLsbD i = (s.extNow p).getLsbD i := by
  rw [getLsbD_level s p hi, if_neg]
  rintro ⟨hdir, hmodel⟩
  rcases h with h | h
  · rw [h] at hdir
    cases hdir
  · rw [h] at hmodel
    cases hmodel

theorem step_of_environment {s : State} {p : Nat} {e : ExtLevel} {rest : List Turn} (hl : s.legal = true)
    (ht : s.schedule = .environment p e :: rest) : step s = .next ({ s with schedule := rest }.setExt p e) := by
  rw [step_of_legal hl, advance_of_schedule ht]
  rfl

/-- Settles O35: the step is the environment's move alone, and a pin whose level follows `EXT` reads what it applies. -/
theorem environmentChangesOnlyTheExternalLevel : Obligations.EnvironmentChangesOnlyTheExternalLevel := by
  intro s p e rest hl ht
  have hkept : RegistersKept s ({ s with schedule := rest }.setExt p e) := fun p' k => by
    rw [stored_setExt, stored_schedule]
  refine ⟨_, step_of_environment hl ht, hkept, numPorts_setExt .., ext_setExt _ p e, rfl, rfl, rfl, rfl, rfl, ?_⟩
  rintro v rfl hp
  have hext : ({ s with schedule := rest }.setExt p (.held v)).extNow p = v := extNow_setExt_held v hp
  refine ⟨hext, fun i hi hfollows => ?_⟩
  exact (getLsbD_level_of_external hi hfollows).trans (by rw [hext])

end Sys2Proof.Machine
end

section
/-! The family 30_encoding.md: which words are reserved, what a word responds, and the bits of a word that do not matter. -/

namespace Sys2Proof

/-! ### A field of a word, under the bits an operation uses -/

/-- Words that agree under a mask agree on every field the mask covers. -/
theorem extractLsb'_eq_of_and_eq {w w' u : CmdWord} {start len : Nat} (h : w' &&& u = w &&& u)
    (hu : u.extractLsb' start len = BitVec.allOnes len) : w'.extractLsb' start len = w.extractLsb' start len := by
  have e := congrArg (BitVec.extractLsb' start len) h
  rwa [BitVec.extractLsb'_and, BitVec.extractLsb'_and, hu, BitVec.and_allOnes, BitVec.and_allOnes] at e

/-- Words that agree under a mask with bit 0 have the same `DATA[0]`. -/
theorem dataBit_eq_of_and_eq {w w' u : CmdWord} (h : w' &&& u = w &&& u) (hu : u.getLsbD 0 = true) :
    dataBit w' = dataBit w := by
  have e : (w' &&& u).getLsbD 0 = (w &&& u).getLsbD 0 := by rw [h]
  rw [BitVec.getLsbD_and, BitVec.getLsbD_and, hu, Bool.and_true, Bool.and_true] at e
  simpa [dataBit, dataField] using e

/-- The decoder reads no bit outside the used bits of the operation it answers (30_encoding.md R54): `OP` and `PORT` are used by
every operation, and each operation uses what else it decodes to. -/
theorem decode_eq_of_usedBits {cmd cmd' : CmdWord} {i : Instr} (hd : decode cmd = .instr i)
    (h : cmd' &&& i.usedBits = cmd &&& i.usedBits) : decode cmd' = .instr i := by
  have hop : opField cmd' = opField cmd := extractLsb'_eq_of_and_eq h (by cases i <;> simp only [Instr.usedBits] <;> decide)
  have hport : portField cmd' = portField cmd := extractLsb'_eq_of_and_eq h (by cases i <;> simp only [Instr.usedBits] <;> decide)
  rcases decode_cases cmd with ⟨ho, e⟩ | ⟨ho, e⟩ | ⟨ho, e⟩ | ⟨ho, e⟩ | ⟨ho, e⟩ | ⟨ho, e⟩ | ⟨-, e⟩ <;>
    rw [e] at hd <;> cases hd <;> simp only [Instr.usedBits] at h
  · have hpin : pinField cmd' = pinField cmd := extractLsb'_eq_of_and_eq h (by decide)
    have hbit : dataBit cmd' = dataBit cmd := dataBit_eq_of_and_eq h (by decide)
    simp [decode, hop, ho, hport, hpin, hbit]
  · have hdata : dataField cmd' = dataField cmd := extractLsb'_eq_of_and_eq h (by decide)
    simp [decode, hop, ho, hport, hdata]
  · have hpin : pinField cmd' = pinField cmd := extractLsb'_eq_of_and_eq h (by decide)
    simp [decode, hop, ho, hport, hpin]
  · simp [decode, hop, ho, hport]
  · have hpin : pinField cmd' = pinField cmd := extractLsb'_eq_of_and_eq h (by decide)
    have hbit : dataBit cmd' = dataBit cmd := dataBit_eq_of_and_eq h (by decide)
    simp [decode, hop, ho, hport, hpin, hbit]
  · have hdata : dataField cmd' = dataField cmd := extractLsb'_eq_of_and_eq h (by decide)
    simp [decode, hop, ho, hport, hdata]

/-- The canonical word of every operation, from the lemmas per operation. -/
theorem canonicalWord (i : Instr) : Laws.CanonicalWord.Statement i := by
  cases i with
  | setupPinDirection port pin d => exact Laws.CanonicalWord.setupPinDirection port pin d
  | setupPortDirection port mask => exact Laws.CanonicalWord.setupPortDirection port mask
  | readPin port pin => exact Laws.CanonicalWord.readPin port pin
  | readPort port => exact Laws.CanonicalWord.readPort port
  | writePin port pin l => exact Laws.CanonicalWord.writePin port pin l
  | writePort port value => exact Laws.CanonicalWord.writePort port value

/-! ### Reserved opcodes -/

/-- A word is reserved where its opcode is 6 or more, and an operation otherwise (30_encoding.md R55, R57). -/
theorem decode_reserved_or_instr (cmd : CmdWord) :
    (6 ≤ (opField cmd).toNat ∧ decode cmd = .reserved (opField cmd)) ∨
    (¬ 6 ≤ (opField cmd).toNat ∧ ∃ i, decode cmd = .instr i) := by
  rcases decode_cases cmd with h | h | h | h | h | h | h
  on_goal 7 => exact .inl h
  all_goals exact .inr ⟨by omega, _, h.2⟩

end Sys2Proof

namespace Sys2Proof.Machine

/-! ### What a word does, from what it decodes to -/

theorem afterWord_of_instr {cmd : CmdWord} {i : Instr} (h : decode cmd = .instr i) (s : State) :
    afterWord cmd s = after i s := by simp [afterWord, h]

theorem afterWord_of_reserved {cmd : CmdWord} {op : Byte} (h : decode cmd = .reserved op) (s : State) :
    afterWord cmd s = s.respond .none := by simp [afterWord, h]

theorem rsp_afterWord_of_instr {cmd : CmdWord} {i : Instr} (h : decode cmd = .instr i) (s : State) :
    (afterWord cmd s).rsp = responseOf i s := by rw [afterWord_of_instr h, rsp_after]

theorem runWord_eq_of_decode_eq {cmd cmd' : CmdWord} (h : decode cmd' = decode cmd) (s : State) :
    runWord cmd' s = runWord cmd s := by rw [runWord, h, runWord]

theorem splitStart_eq_of_decode_eq {cmd cmd' : CmdWord} (h : decode cmd' = decode cmd) (s : State) :
    s.splitStart cmd' = s.splitStart cmd := by rw [State.splitStart, h, State.splitStart]

/-- Settles O24: the decoder does not look at the ignored bits, and what a word does depends on what it decodes to alone. -/
theorem ignoredFieldsHaveNoEffect : Obligations.IgnoredFieldsHaveNoEffect := by
  intro cmd cmd' i hd h
  have hd' : decode cmd' = .instr i := decode_eq_of_usedBits hd h
  have e : decode cmd' = decode cmd := hd'.trans hd.symm
  exact ⟨hd', (canonicalWord i).2, fun s => ⟨runWord_eq_of_decode_eq e s, splitStart_eq_of_decode_eq e s⟩⟩

/-- Settles O13: a word is reserved or an operation, and a reserved word does nothing but respond. -/
theorem reservedOpcodeIsASilentNoOp : Obligations.ReservedOpcodeIsASilentNoOp := by
  intro s cmd
  rcases decode_reserved_or_instr cmd with ⟨ho, hd⟩ | ⟨ho, hi⟩
  · have hrun : runWord cmd s = .next (s.respond .none) := by rw [runWord_eq, afterWord_of_reserved hd]
    exact ⟨fun _ => ⟨hd, s.respond .none, hrun, rfl, surroundingsKept_respond s .none, rfl⟩, fun h => absurd ho h⟩
  · exact ⟨fun h => absurd h ho, fun _ => hi⟩

/-! ### Responses -/

/-- `readPin` responds 0 or 1, the sentinel being 0 (42_read.md R80). -/
theorem pinResponse_eq_zero_or_one (s : State) (port pin : Byte) :
    s.pinResponse port pin = .byte 0x00#8 ∨ s.pinResponse port pin = .byte 0x01#8 := by
  unfold State.pinResponse
  split
  · rw [getBit_eq]
    split
    · exact .inr rfl
    · exact .inl rfl
  · exact .inl rfl

theorem pinResponse_of_invalid {s : State} {port pin : Byte} (h : ¬ (port.toNat < s.numPorts ∧ pin.toNat < 8)) :
    s.pinResponse port pin = .byte 0x00#8 :=
  if_neg (mt (validPortPin_iff s port pin).mp h)

theorem portResponse_eq_byte (s : State) (port : Byte) : ∃ v, s.portResponse port = .byte v := by
  unfold State.portResponse
  split
  · exact ⟨_, rfl⟩
  · exact ⟨_, rfl⟩

theorem portResponse_of_invalid {s : State} {port : Byte} (h : ¬ port.toNat < s.numPorts) :
    s.portResponse port = .byte 0x00#8 :=
  if_neg (mt (validPort_iff s port).mp h)

theorem rsp_afterWord_of_readPin_op {cmd : CmdWord} (h : (opField cmd).toNat = 2) (s : State) :
    (afterWord cmd s).rsp = s.pinResponse (portField cmd) (pinField cmd) :=
  rsp_afterWord_of_instr (i := .readPin (portField cmd) (pinField cmd)) (by simp [decode, h]) s

theorem rsp_afterWord_of_readPort_op {cmd : CmdWord} (h : (opField cmd).toNat = 3) (s : State) :
    (afterWord cmd s).rsp = s.portResponse (portField cmd) :=
  rsp_afterWord_of_instr (i := .readPort (portField cmd)) (by simp [decode, h]) s

/-- Every word that is no read gets no response value: the four mutating operations and the reserved words. -/
theorem rsp_afterWord_of_not_read {cmd : CmdWord} (h2 : (opField cmd).toNat ≠ 2) (h3 : (opField cmd).toNat ≠ 3)
    (s : State) : (afterWord cmd s).rsp = .none := by
  rcases decode_cases cmd with ⟨-, hd⟩ | ⟨-, hd⟩ | ⟨h, -⟩ | ⟨h, -⟩ | ⟨-, hd⟩ | ⟨-, hd⟩ | ⟨-, hd⟩
  · exact rsp_afterWord_of_instr hd s
  · exact rsp_afterWord_of_instr hd s
  · exact absurd h h2
  · exact absurd h h3
  · exact rsp_afterWord_of_instr hd s
  · exact rsp_afterWord_of_instr hd s
  · rw [afterWord_of_reserved hd, rsp_respond]

/-- Settles O15: the two reads respond what they read or the sentinel, every other word responds none. -/
theorem responseShapeFollowsTheOpcode : Obligations.ResponseShapeFollowsTheOpcode := by
  refine fun s cmd => ⟨afterWord cmd s, runWord_eq cmd s, fun h => ?_, fun h => ?_, fun h2 h3 => ?_, fun h hport => ?_,
    fun h hpin => ?_⟩
  · rw [rsp_afterWord_of_readPin_op h]
    exact pinResponse_eq_zero_or_one ..
  · rw [rsp_afterWord_of_readPort_op h]
    exact portResponse_eq_byte ..
  · exact rsp_afterWord_of_not_read h2 h3 s
  · rcases h with h | h
    · rw [rsp_afterWord_of_readPin_op h]
      exact pinResponse_of_invalid fun hv => hport hv.1
    · rw [rsp_afterWord_of_readPort_op h]
      exact portResponse_of_invalid hport
  · rw [rsp_afterWord_of_readPin_op h]
    exact pinResponse_of_invalid fun hv => hpin hv.2

end Sys2Proof.Machine
end

section
/-! The family 40_operation_common.md: the laws of the bit logic, a command's all or nothing, and its independence of what came before. -/

namespace Sys2Proof.Machine

/-! ### Bit logic: `setBit v i` is `putBit v i true`, `clrBit v i` is `putBit v i false` -/

/-- The last write to a bit wins (40_operation_common.md R68). -/
theorem putBit_putBit_same (v : Byte) (i : Nat) (b c : Bool) : putBit (putBit v i b) i c = putBit v i c := by
  apply BitVec.eq_of_getLsbD_eq
  intro j hj
  rw [getLsbD_putBit _ _ _ hj, getLsbD_putBit _ _ _ hj, getLsbD_putBit _ _ _ hj]
  by_cases h : j = i <;> simp [h]

/-- Writes to different bits commute. -/
theorem putBit_comm (v : Byte) {i j : Nat} (hij : i ≠ j) (b c : Bool) :
    putBit (putBit v j c) i b = putBit (putBit v i b) j c := by
  apply BitVec.eq_of_getLsbD_eq
  intro n hn
  simp only [getLsbD_putBit _ _ _ hn]
  by_cases h : n = i
  · simp [h, hij]
  · simp [h]

/-- Writing the bit that is already there changes nothing. -/
theorem putBit_eq_self {v : Byte} {i : Nat} {b : Bool} (h : v.getLsbD i = b) : putBit v i b = v := by
  apply BitVec.eq_of_getLsbD_eq
  intro j hj
  rw [getLsbD_putBit _ _ _ hj]
  split
  next e => rw [e, h]
  next => rfl

theorem getLsbD_putBit_same (v : Byte) {i : Nat} (hi : i < 8) (b : Bool) : (putBit v i b).getLsbD i = b := by
  rw [getLsbD_putBit v i b hi, if_pos rfl]

theorem getLsbD_putBit_of_ne (v : Byte) {i j : Nat} (hj : j < 8) (h : j ≠ i) (b : Bool) :
    (putBit v i b).getLsbD j = v.getLsbD j := by
  rw [getLsbD_putBit v i b hj, if_neg h]

/-- Settles O16, set and clear being the two cases of writing a bit. -/
theorem bitLaws : Obligations.BitLaws := by
  refine ⟨fun v i hi => ⟨?setIn, ?clearIn, fun j hj hne => ⟨?setFrame, ?clearFrame⟩, getBit_eq v i, ?setSet, ?clearClear,
    ?setClear, ?clearSet, ?alreadySet, ?alreadyClear⟩, fun v i j _ _ hij => ⟨?commSetClear, ?commSetSet, ?commClearClear⟩,
    fun s port pin => ⟨validPort_iff s port, validPin_iff pin⟩, by decide, by decide⟩
  case setIn => exact getLsbD_putBit_same v hi true
  case clearIn => exact getLsbD_putBit_same v hi false
  case setFrame => exact getLsbD_putBit_of_ne v hj hne true
  case clearFrame => exact getLsbD_putBit_of_ne v hj hne false
  case setSet => exact putBit_putBit_same v i true true
  case clearClear => exact putBit_putBit_same v i false false
  case setClear => exact putBit_putBit_same v i true false
  case clearSet => exact putBit_putBit_same v i false true
  case alreadySet => exact putBit_eq_self
  case alreadyClear => exact putBit_eq_self
  case commSetClear => exact putBit_comm v hij true false
  case commSetSet => exact putBit_comm v hij true true
  case commClearClear => exact putBit_comm v hij false false

/-! ### All or nothing -/

/-- The byte a single-bit operation stores: the addressed register with its one bit replaced. -/
theorem storedByte_of_bitTarget {i : Instr} {k k' : StoredKind} {port port' pin : Byte} {b : Bool}
    (hb : bitTarget i = some (k', port', pin, b)) (hw : writeTarget i = some (k, port)) (s : State) :
    storedByte i s = putBit (s.stored port.toNat k) pin.toNat b := by
  cases i <;> cases hb <;> cases hw <;> rfl

/-- The byte a byte-wide write stores: the data byte of its word. -/
theorem storedByte_of_byteWide {cmd : CmdWord} {i : Instr} {k : StoredKind} {port : Byte} (hd : decode cmd = .instr i)
    (hb : bitTarget i = none) (hw : writeTarget i = some (k, port)) (s : State) : storedByte i s = dataField cmd := by
  rcases decode_cases cmd with ⟨-, e⟩ | ⟨-, e⟩ | ⟨-, e⟩ | ⟨-, e⟩ | ⟨-, e⟩ | ⟨-, e⟩ | ⟨-, e⟩ <;> rw [e] at hd <;> cases hd
  · cases hb
  · rfl
  · cases hw
  · cases hw
  · cases hb
  · rfl

theorem stored_after_of_target {i : Instr} {s : State} {k : StoredKind} {port : Byte} (hw : writeTarget i = some (k, port))
    (hv : operandsValid s i = true) : (after i s).stored port.toNat k = storedByte i s := by
  rw [stored_after, if_pos ⟨port, hw, rfl, hv⟩]

/-- Settles O14: a word is reserved, or its operation writes nothing, or it writes the one register it addresses. -/
theorem commandIsAllOrNothing : Obligations.CommandIsAllOrNothing := by
  intro s cmd
  refine ⟨afterWord cmd s, runWord_eq cmd s, ?_⟩
  cases hd : decode cmd with
  | reserved op =>
    rw [afterWord_of_reserved hd]
    exact .inl fun p k => stored_respond s .none p k
  | instr i =>
    rw [afterWord_of_instr hd]
    rcases after_cases i s with ⟨k, port, hw, hv, -, -⟩ | ⟨-, e⟩
    · have hstored := stored_after_of_target hw hv
      refine .inr ⟨i, k, port, rfl, hw, hv, otherRegistersKept_after s hw, ?_⟩
      cases hb : bitTarget i with
      | none => exact hstored.trans (storedByte_of_byteWide hd hb hw s)
      | some target =>
        intro j hj
        rw [hstored, storedByte_of_bitTarget hb hw, getLsbD_putBit _ _ _ hj]
    · rw [e]
      exact .inl fun p k => stored_respond s _ p k

/-! ### What a command depends on -/

theorem operandsValid_congr {s t : State} (hn : t.numPorts = s.numPorts) (i : Instr) :
    operandsValid t i = operandsValid s i := by
  cases i <;> simp only [operandsValid, validPortPin, validPort, hn]

/-- The byte an operation stores depends on the stored registers alone. -/
theorem storedByte_congr {s t : State} (h : RegistersKept s t) (i : Instr) : storedByte i t = storedByte i s := by
  have hdir : ∀ p, t.dir p = s.dir p := fun p => h p .dir
  have hout : ∀ p, t.out p = s.out p := fun p => h p .out
  cases i <;> simp only [storedByte, hdir, hout]

theorem registersKept_after {s t : State} (hn : t.numPorts = s.numPorts) (h : RegistersKept s t) (i : Instr) :
    RegistersKept (after i s) (after i t) := by
  intro p k
  rw [stored_after, stored_after, operandsValid_congr hn, storedByte_congr h, h p k]

/-- The registers a word leaves depend on the registers it finds, and on the number of ports. -/
theorem registersKept_afterWord {s t : State} (hn : t.numPorts = s.numPorts) (h : RegistersKept s t) (cmd : CmdWord) :
    RegistersKept (afterWord cmd s) (afterWord cmd t) := by
  cases hd : decode cmd with
  | reserved op =>
    rw [afterWord_of_reserved hd, afterWord_of_reserved hd]
    intro p k
    rw [stored_respond, stored_respond, h p k]
  | instr i =>
    rw [afterWord_of_instr hd, afterWord_of_instr hd]
    exact registersKept_after hn h i

theorem level_congr {s t : State} (h : RegistersKept s t) (hm : t.pinModel = s.pinModel) {p : Nat}
    (he : t.extNow p = s.extNow p) : t.level p = s.level p := by
  have hdir : t.dir p = s.dir p := h p .dir
  have hout : t.out p = s.out p := h p .out
  rw [State.level, State.level, hm, hdir, hout, he]

theorem pinResponse_congr {s t : State} {port : Byte} (hn : t.numPorts = s.numPorts)
    (hl : t.level port.toNat = s.level port.toNat) (pin : Byte) : t.pinResponse port pin = s.pinResponse port pin := by
  have hv : validPortPin t port pin = validPortPin s port pin := operandsValid_congr hn (.readPin port pin)
  simp only [State.pinResponse, State.regRead, hv, hl]

theorem portResponse_congr {s t : State} {port : Byte} (hn : t.numPorts = s.numPorts)
    (hl : t.level port.toNat = s.level port.toNat) : t.portResponse port = s.portResponse port := by
  have hv : validPort t port = validPort s port := operandsValid_congr hn (.readPort port)
  simp only [State.portResponse, State.regRead, hv, hl]

/-- The response of a word depends on the registers through the level of the port it names alone. -/
theorem rsp_afterWord_congr {s t : State} {cmd : CmdWord} (hn : t.numPorts = s.numPorts)
    (hl : t.level (portField cmd).toNat = s.level (portField cmd).toNat) :
    (afterWord cmd t).rsp = (afterWord cmd s).rsp := by
  by_cases h2 : (opField cmd).toNat = 2
  · rw [rsp_afterWord_of_readPin_op h2, rsp_afterWord_of_readPin_op h2]
    exact pinResponse_congr hn hl _
  · by_cases h3 : (opField cmd).toNat = 3
    · rw [rsp_afterWord_of_readPort_op h3, rsp_afterWord_of_readPort_op h3]
      exact portResponse_congr hn hl
    · rw [rsp_afterWord_of_not_read h2 h3, rsp_afterWord_of_not_read h2 h3]

/-! ### A command repeated -/

/-- An operation that merges no single bit stores a byte that does not depend on the state. -/
theorem storedByte_of_not_bitTarget {i : Instr} (hb : bitTarget i = none) (s t : State) : storedByte i t = storedByte i s := by
  cases i with
  | setupPinDirection _ _ _ | writePin _ _ _ => cases hb
  | setupPortDirection _ _ | readPin _ _ | readPort _ | writePort _ _ => rfl

/-- An operation that has just stored its byte would store the same byte again. -/
theorem storedByte_after {i : Instr} {s : State} {k : StoredKind} {port : Byte} (hw : writeTarget i = some (k, port))
    (hv : operandsValid s i = true) : storedByte i (after i s) = storedByte i s := by
  cases hb : bitTarget i with
  | none => exact storedByte_of_not_bitTarget hb _ _
  | some target =>
    rw [storedByte_of_bitTarget hb hw, stored_after_of_target hw hv, storedByte_of_bitTarget hb hw, putBit_putBit_same]

theorem registersKept_after_after (i : Instr) (s : State) : RegistersKept (after i s) (after i (after i s)) := by
  intro p k
  rw [stored_after i (after i s)]
  split
  next h =>
    obtain ⟨port, hw, rfl, hv⟩ := h
    rw [operandsValid_congr (numPorts_after i s)] at hv
    rw [storedByte_after hw hv, stored_after_of_target hw hv]
  next => rfl

/-- A word executed again at once leaves the registers as it left them the first time (40_operation_common.md R69). -/
theorem registersKept_afterWord_afterWord (cmd : CmdWord) (s : State) :
    RegistersKept (afterWord cmd s) (afterWord cmd (afterWord cmd s)) := by
  cases hd : decode cmd with
  | reserved op =>
    rw [afterWord_of_reserved hd (afterWord cmd s)]
    exact fun p k => stored_respond _ .none p k
  | instr i =>
    rw [afterWord_of_instr hd, afterWord_of_instr hd]
    exact registersKept_after_after i s

/-- Settles O17, by what the registers and the response after a word depend on, and by idempotence of the write. -/
theorem commandsAreIndependentAndIdempotent : Obligations.CommandsAreIndependentAndIdempotent := by
  refine ⟨fun cmd s s' t t' ht ht' hn hkept => ?_, fun cmd s t u ht hu => ?_⟩
  · rw [runWord_eq] at ht ht'
    cases ht
    cases ht'
    exact ⟨registersKept_afterWord hn hkept cmd, fun hm he => rsp_afterWord_congr hn (level_congr hkept hm (he _))⟩
  · rw [runWord_eq] at ht hu
    cases ht
    cases hu
    exact ⟨registersKept_afterWord_afterWord cmd s,
      fun hl => rsp_afterWord_congr (surroundingsKept_afterWord cmd s).numPorts hl⟩

end Sys2Proof.Machine
end

section
/-! The family 41_direction.md: one bit or the whole of a port's direction, the pins that follow it, and how the two kinds of
operation combine. -/

namespace Sys2Proof.Machine

/-! ### The read half of a single-bit operation -/

/-- Where single-bit operations are split, the first access of one with valid identifiers is its read (20_memory.md R41). -/
theorem splitStart_of_bitTarget {s : State} {cmd : CmdWord} {i : Instr} {k : StoredKind} {port pin : Byte} {b : Bool}
    (hd : decode cmd = .instr i) (hb : bitTarget i = some (k, port, pin, b)) (hs : s.splits = true)
    (hv : port.toNat < s.numPorts ∧ pin.toNat < 8) : s.splitStart cmd = some (s.beginBitWrite k port pin b) := by
  simp [State.splitStart, hd, hb, hs, (validPortPin_iff s port pin).mpr hv]

/-- An operation of one access is never split. -/
theorem splitStart_of_not_bitTarget {cmd : CmdWord} {i : Instr} (hd : decode cmd = .instr i) (hb : bitTarget i = none)
    (s : State) : s.splitStart cmd = none := by
  simp [State.splitStart, hd, hb]

/-! ### Decoding -/

theorem decode_packCmd_setupPinDirection (port pin data : Byte) :
    decode (packCmd 0x00#8 port pin data) = .instr (.setupPinDirection port pin (Direction.ofBit (data.getLsbD 0))) := by
  rw [decode_packCmd, if_pos (by decide)]

theorem decode_packCmd_setupPortDirection (port pin data : Byte) :
    decode (packCmd 0x01#8 port pin data) = .instr (.setupPortDirection port data) := by
  rw [decode_packCmd, if_neg (by decide), if_pos (by decide)]

/-! ### What the direction operations leave -/

/-- The byte of a single-bit direction write, as R75 writes it. -/
theorem putBit_toBit (v : Byte) (i : Nat) (d : Direction) :
    putBit v i d.toBit = if d = .output then v ||| 1#8 <<< i else v &&& ~~~ (1#8 <<< i) := by
  cases d <;> rfl

/-- An operation on a direction register leaves every output register alone. -/
theorem out_after_of_dir_target {i : Instr} {port : Byte} (hw : writeTarget i = some (.dir, port)) (s : State) (p : Nat) :
    (after i s).out p = s.out p :=
  stored_after_of_other_kind s (k := .out) (fun port' h => by rw [hw] at h; cases h) p

theorem dir_after_setupPinDirection {s : State} {port pin : Byte} (hv : port.toNat < s.numPorts ∧ pin.toNat < 8)
    (d : Direction) : (after (.setupPinDirection port pin d) s).dir port.toNat =
      putBit (s.dir port.toNat) pin.toNat d.toBit :=
  dir_after_of_target (i := .setupPinDirection port pin d) rfl ((validPortPin_iff s port pin).mpr hv)

theorem getLsbD_dir_after_setupPinDirection {s : State} {port pin : Byte}
    (hv : port.toNat < s.numPorts ∧ pin.toNat < 8) (d : Direction) {i : Nat} (hi : i < 8) :
    ((after (.setupPinDirection port pin d) s).dir port.toNat).getLsbD i =
      if i = pin.toNat then decide (d = .output) else (s.dir port.toNat).getLsbD i := by
  rw [dir_after_setupPinDirection hv, getLsbD_putBit _ _ _ hi, Direction.toBit_eq]

theorem dir_after_setupPortDirection {s : State} {port : Byte} (hp : port.toNat < s.numPorts) (mask : Byte) :
    (after (.setupPortDirection port mask) s).dir port.toNat = mask :=
  dir_after_of_target (i := .setupPortDirection port mask) rfl ((validPort_iff s port).mpr hp)

/-! ### The pins that follow -/

/-- With loopback an output pin reads what is driven, an input pin what is applied (10_state.md R17). -/
theorem getLsbD_level_of_loopback {s : State} {p i : Nat} (hi : i < 8) (hm : s.pinModel = .loopback) {d : Direction}
    (hd : (s.dir p).getLsbD i = decide (d = .output)) :
    (s.level p).getLsbD i = if d = .output then (s.out p).getLsbD i else (s.extNow p).getLsbD i := by
  rw [getLsbD_level s p hi, hd]
  simp [hm]

/-- Only an input pin has its pull-up enabled by its output bit (10_state.md R19). -/
theorem getLsbD_padPu_of_direction {s : State} {p i : Nat} (hi : i < 8) {d : Direction}
    (hd : (s.dir p).getLsbD i = decide (d = .output)) :
    (s.padPu p).getLsbD i = (Config.hasPullup && decide (d = .input) && (s.out p).getLsbD i) := by
  rw [getLsbD_padPu s p hi, hd]
  cases d <;> rfl

/-- Settles O1: the operation stores the old direction byte with one bit replaced, and the pin follows its new bit. -/
theorem setupPinDirectionChangesOneDirectionBit : Obligations.SetupPinDirectionChangesOneDirectionBit := by
  refine ⟨decode_packCmd_setupPinDirection, fun s port pin data hs hp hpin => ?readHalf, fun s port pin d => ?_⟩
  case readHalf =>
    rw [splitStart_of_bitTarget (decode_packCmd_setupPinDirection port pin data) rfl hs ⟨hp, hpin⟩, Direction.toBit_ofBit]
    rfl
  have hkept := surroundingsKept_after (.setupPinDirection port pin d) s
  refine ⟨_, exec_eq .., rsp_after .., hkept, fun hv => ?valid, fun hv => ?invalid⟩
  case valid =>
    have hbits := fun i (hi : i < 8) => getLsbD_dir_after_setupPinDirection hv d hi
    have hbit := (hbits pin.toNat hv.2).trans (if_pos rfl)
    have hout := out_after_of_dir_target (i := .setupPinDirection port pin d) rfl s port.toNat
    refine ⟨(dir_after_setupPinDirection hv d).trans (putBit_toBit ..), hbits, otherRegistersKept_after s rfl, hbits,
      fun hm => ?_, ?_⟩
    · rw [getLsbD_level_of_loopback hv.2 (hkept.pinModel.trans hm) hbit, hout]
    · rw [getLsbD_padPu_of_direction hv.2 hbit, hout]
  case invalid =>
    exact ports_after_of_invalid (Bool.eq_false_iff.mpr (mt (validPortPin_iff s port pin).mp hv))

/-- Settles O2: the operation stores its mask as it is, in one access, and the pins follow the mask. -/
theorem setupPortDirectionReplacesDirection : Obligations.SetupPortDirectionReplacesDirection := by
  refine ⟨decode_packCmd_setupPortDirection,
    fun s port pin data => splitStart_of_not_bitTarget (decode_packCmd_setupPortDirection port pin data) rfl s,
    fun s port mask => ?_⟩
  have hkept := surroundingsKept_after (.setupPortDirection port mask) s
  refine ⟨_, exec_eq .., rsp_after .., hkept, fun hp => ?valid, fun hp => ?invalid⟩
  case valid =>
    have hdir := dir_after_setupPortDirection hp mask
    have hout := out_after_of_dir_target (i := .setupPortDirection port mask) rfl s port.toNat
    refine ⟨hdir, otherRegistersKept_after s rfl, hdir, fun i hi => ?_, ?_⟩
    · rw [getLsbD_level _ _ hi, hdir, hout, hkept.pinModel]
    · rw [State.padPu, hdir, hout, pullUps]
  case invalid =>
    exact ports_after_of_invalid (Bool.eq_false_iff.mpr (mt (validPort_iff s port).mp hp))

/-! ### Whole-port and single-pin operations combined -/

/-- After any operations, a byte-wide write leaves exactly its own byte, and a single-bit write of the same register then changes
its own bit of that byte alone (41_direction.md R77, 43_write.md R88). -/
theorem execAll_byteWide_then_bit {s : State} {whole single : Instr} {k : StoredKind} {port pin v : Byte} {b : Bool}
    (hw : writeTarget whole = some (k, port)) (hv : operandsValid s whole = true)
    (hbyte : ∀ t, storedByte whole t = v) (hw' : writeTarget single = some (k, port))
    (hb : bitTarget single = some (k, port, pin, b)) (hv' : operandsValid s single = true) (earlier : List Instr) :
    ∃ t u, execAll (earlier ++ [whole]) s = .next t ∧ t.stored port.toNat k = v ∧ exec single t = .next u ∧
      ∀ i < 8, (u.stored port.toNat k).getLsbD i = if i = pin.toNat then b else v.getLsbD i := by
  obtain ⟨t, ht, hn⟩ := execAll_next earlier s
  have hstored : (after whole t).stored port.toNat k = v := by
    rw [stored_after_of_target hw ((operandsValid_congr hn whole).trans hv), hbyte]
  have hvalid : operandsValid (after whole t) single = true :=
    (operandsValid_congr ((numPorts_after whole t).trans hn) single).trans hv'
  refine ⟨after whole t, after single (after whole t), ?_, hstored, exec_eq .., fun i hi => ?_⟩
  · simp [execAll_append _ ht, execAll, exec_eq]
  · rw [stored_after_of_target hw' hvalid, storedByte_of_bitTarget hb hw', hstored, getLsbD_putBit _ _ _ hi]

/-- Settles O3, for each of the two registers by the one lemma on a byte-wide and a single-bit write. -/
theorem pinOperationsMergeAndPortOperationsReplace : Obligations.PinOperationsMergeAndPortOperationsReplace := by
  refine ⟨fun s port mask pin d earlier hp hpin => ?_, fun s port value pin l earlier hp hpin => ?_⟩
  · rw [← Direction.toBit_eq]
    exact execAll_byteWide_then_bit (whole := .setupPortDirection port mask) (single := .setupPinDirection port pin d) rfl
      ((validPort_iff s port).mpr hp) (fun _ => rfl) rfl rfl ((validPortPin_iff s port pin).mpr ⟨hp, hpin⟩) _
  · rw [← Level.toBit_eq]
    exact execAll_byteWide_then_bit (whole := .writePort port value) (single := .writePin port pin l) rfl
      ((validPort_iff s port).mpr hp) (fun _ => rfl) rfl rfl ((validPortPin_iff s port pin).mpr ⟨hp, hpin⟩) _

end Sys2Proof.Machine
end

section
/-! The family 42_read.md: the two reads respond with the level of a pin or of a port, or with the sentinel, and write no register. -/

namespace Sys2Proof.Machine

/-! ### Decoding -/

theorem decode_packCmd_readPin (port pin data : Byte) :
    decode (packCmd 0x02#8 port pin data) = .instr (.readPin port pin) := by
  rw [decode_packCmd, if_neg (by decide), if_neg (by decide), if_pos (by decide)]

theorem decode_packCmd_readPort (port pin data : Byte) :
    decode (packCmd 0x03#8 port pin data) = .instr (.readPort port) := by
  rw [decode_packCmd, if_neg (by decide), if_neg (by decide), if_neg (by decide), if_pos (by decide)]

/-! ### The responses with valid identifiers -/

theorem pinResponse_of_valid {s : State} {port pin : Byte} (hv : port.toNat < s.numPorts ∧ pin.toNat < 8) :
    s.pinResponse port pin = .byte (if (s.level port.toNat).getLsbD pin.toNat then 0x01#8 else 0x00#8) := by
  rw [State.pinResponse, if_pos ((validPortPin_iff s port pin).mpr hv), getBit_eq, State.regRead]

theorem portResponse_of_valid {s : State} {port : Byte} (hp : port.toNat < s.numPorts) :
    s.portResponse port = .byte (s.level port.toNat) := by
  rw [State.portResponse, if_pos ((validPort_iff s port).mpr hp), State.regRead]

/-! ### The level of a whole port -/

theorem level_of_free {s : State} (hm : s.pinModel = .free) (p : Nat) : s.level p = s.extNow p := by
  rw [State.level, hm, levelOf_free]

/-- With loopback the pins select, by their direction, between the driven and the applied byte (10_state.md R17). -/
theorem level_of_loopback {s : State} (hm : s.pinModel = .loopback) (p : Nat) :
    s.level p = (s.out p &&& s.dir p) ||| (s.extNow p &&& ~~~ s.dir p) := by
  apply BitVec.eq_of_getLsbD_eq
  intro i hi
  rw [getLsbD_level s p hi, BitVec.getLsbD_or, BitVec.getLsbD_and, BitVec.getLsbD_and, BitVec.getLsbD_not]
  cases (s.dir p).getLsbD i <;> simp [hm, hi]

theorem level_eq (s : State) (p : Nat) :
    s.level p = if s.pinModel = .loopback then (s.out p &&& s.dir p) ||| (s.extNow p &&& ~~~ s.dir p)
      else s.extNow p := by
  cases hm : s.pinModel with
  | loopback => rw [if_pos rfl, level_of_loopback hm]
  | free => rw [if_neg (by decide), level_of_free hm]

/-! ### The low and the invalid read -/

/-- An invalid pin read and the read of a low pin get the same byte (42_read.md R82). -/
theorem pinResponse_eq_zero {s : State} {port pin : Byte}
    (h : ¬ (port.toNat < s.numPorts ∧ pin.toNat < 8) ∨ (s.level port.toNat).getLsbD pin.toNat = false) :
    s.pinResponse port pin = .byte 0x00#8 := by
  by_cases hv : port.toNat < s.numPorts ∧ pin.toNat < 8
  · have hlow := h.resolve_left (not_not_intro hv)
    rw [pinResponse_of_valid hv, hlow]
    rfl
  · exact pinResponse_of_invalid hv

/-- An invalid port read and the read of an all-low port get the same byte (42_read.md R82). -/
theorem portResponse_eq_zero {s : State} {port : Byte} (h : s.numPorts ≤ port.toNat ∨ s.level port.toNat = 0x00#8) :
    s.portResponse port = .byte 0x00#8 := by
  by_cases hp : port.toNat < s.numPorts
  · have hlow := h.resolve_left (Nat.not_le.mpr hp)
    rw [portResponse_of_valid hp, hlow]
  · exact portResponse_of_invalid hp

/-! ### The statements -/

/-- Settles O4: a read only responds, and a pin's level is its bit of `IN`, by the pin model. -/
theorem readPinReturnsThePinLevel : Obligations.ReadPinReturnsThePinLevel := by
  refine ⟨decode_packCmd_readPin, fun s port pin => ?_⟩
  have hrsp : (after (.readPin port pin) s).rsp = s.pinResponse port pin := rsp_after ..
  refine ⟨_, exec_eq .., ports_after_of_read rfl, surroundingsKept_after .., fun hv => ⟨?response, ?loopback, ?free⟩,
    fun hv => hrsp.trans (pinResponse_of_invalid hv)⟩
  case response => exact hrsp.trans (pinResponse_of_valid hv)
  case loopback =>
    intro hm
    simp only [getLsbD_level s port.toNat hv.2, hm, and_true]
  case free => exact fun hm => by rw [level_of_free hm]

/-- Settles O5: a read only responds, and the byte is the level of the whole port. -/
theorem readPortReturnsTheLevels : Obligations.ReadPortReturnsTheLevels := by
  refine ⟨decode_packCmd_readPort, fun s port => ?_⟩
  have hrsp : (after (.readPort port) s).rsp = s.portResponse port := rsp_after ..
  refine ⟨_, exec_eq .., ports_after_of_read rfl, surroundingsKept_after .., fun hp => ?valid,
    fun hp => hrsp.trans (portResponse_of_invalid hp)⟩
  case valid => rw [hrsp, portResponse_of_valid hp, level_eq]

/-- Settles O6: both kinds of read that R82 confuses get the byte 0, and no read writes a register. -/
theorem invalidReadLooksLikeALowLevel : Obligations.InvalidReadLooksLikeALowLevel := by
  refine ⟨fun s port pin h => ?_, fun s port h => ?_⟩
  · exact ⟨_, exec_eq .., (rsp_after ..).trans (pinResponse_eq_zero h), ports_after_of_read rfl⟩
  · exact ⟨_, exec_eq .., (rsp_after ..).trans (portResponse_eq_zero h), ports_after_of_read rfl⟩

end Sys2Proof.Machine
end

section
/-! The family 43_write.md: one bit or the whole of a port's output, whatever the direction, and what an input pin makes of it. -/

namespace Sys2Proof.Machine

/-! ### Decoding -/

theorem decode_packCmd_writePin (port pin data : Byte) :
    decode (packCmd 0x04#8 port pin data) = .instr (.writePin port pin (Level.ofBit (data.getLsbD 0))) := by
  rw [decode_packCmd, if_neg (by decide), if_neg (by decide), if_neg (by decide), if_neg (by decide), if_pos (by decide)]

theorem decode_packCmd_writePort (port pin data : Byte) :
    decode (packCmd 0x05#8 port pin data) = .instr (.writePort port data) := by
  rw [decode_packCmd, if_neg (by decide), if_neg (by decide), if_neg (by decide), if_neg (by decide), if_neg (by decide),
    if_pos (by decide)]

/-! ### What the write operations leave -/

/-- The byte of a single-bit output write, as R85 writes it. -/
theorem putBit_level_toBit (v : Byte) (i : Nat) (l : Level) :
    putBit v i l.toBit = if l = .high then v ||| 1#8 <<< i else v &&& ~~~ (1#8 <<< i) := by
  cases l <;> rfl

/-- An operation on an output register leaves every direction register alone. -/
theorem dir_after_of_out_target {i : Instr} {port : Byte} (hw : writeTarget i = some (.out, port)) (s : State) (p : Nat) :
    (after i s).dir p = s.dir p :=
  stored_after_of_other_kind s (k := .dir) (fun port' h => by rw [hw] at h; cases h) p

theorem out_after_writePin {s : State} {port pin : Byte} (hv : port.toNat < s.numPorts ∧ pin.toNat < 8) (l : Level) :
    (after (.writePin port pin l) s).out port.toNat = putBit (s.out port.toNat) pin.toNat l.toBit :=
  out_after_of_target (i := .writePin port pin l) rfl ((validPortPin_iff s port pin).mpr hv)

theorem getLsbD_out_after_writePin {s : State} {port pin : Byte} (hv : port.toNat < s.numPorts ∧ pin.toNat < 8)
    (l : Level) {i : Nat} (hi : i < 8) :
    ((after (.writePin port pin l) s).out port.toNat).getLsbD i =
      if i = pin.toNat then decide (l = .high) else (s.out port.toNat).getLsbD i := by
  rw [out_after_writePin hv, getLsbD_putBit _ _ _ hi, Level.toBit_eq]

/-- The bit a pin write stores is the level it was given. -/
theorem getLsbD_out_after_writePin_same {s : State} {port pin : Byte} (hv : port.toNat < s.numPorts ∧ pin.toNat < 8)
    (l : Level) : ((after (.writePin port pin l) s).out port.toNat).getLsbD pin.toNat = decide (l = .high) := by
  rw [getLsbD_out_after_writePin hv l hv.2, if_pos rfl]

theorem out_after_writePort {s : State} {port : Byte} (hp : port.toNat < s.numPorts) (value : Byte) :
    (after (.writePort port value) s).out port.toNat = value :=
  out_after_of_target (i := .writePort port value) rfl ((validPort_iff s port).mpr hp)

/-! ### The pins that follow -/

/-- With loopback a read of an output pin responds with its output bit (10_state.md R17, 42_read.md R80). -/
theorem pinResponse_of_output {s : State} {port pin : Byte} (hv : port.toNat < s.numPorts ∧ pin.toNat < 8)
    (hm : s.pinModel = .loopback) (hd : (s.dir port.toNat).getLsbD pin.toNat = true) :
    s.pinResponse port pin = .byte (if (s.out port.toNat).getLsbD pin.toNat then 0x01#8 else 0x00#8) := by
  have hlevel : (s.level port.toNat).getLsbD pin.toNat = (s.out port.toNat).getLsbD pin.toNat := by
    rw [getLsbD_level _ _ hv.2, if_pos ⟨hd, hm⟩]
  rw [pinResponse_of_valid hv, hlevel]

/-- A write of an output register does not drive an input pin: the pad stays off, the pull-up enable follows the stored bit, and
the level is the outside's (43_write.md R87). -/
theorem input_pin_after_of_out_target {i : Instr} {s : State} {port : Byte} {j : Nat}
    (hw : writeTarget i = some (.out, port)) (hj : j < 8) (hd : (s.dir port.toNat).getLsbD j = false) :
    ((after i s).padOe port.toNat).getLsbD j = false ∧
    ((after i s).padPu port.toNat).getLsbD j = (Config.hasPullup && ((after i s).out port.toNat).getLsbD j) ∧
    ((after i s).level port.toNat).getLsbD j = ((after i s).extNow port.toNat).getLsbD j := by
  have hdir : ((after i s).dir port.toNat).getLsbD j = false := by rw [dir_after_of_out_target hw, hd]
  refine ⟨hdir, ?_, getLsbD_level_of_external hj (.inl hdir)⟩
  rw [getLsbD_padPu _ _ hj, hdir, Bool.not_false, Bool.and_true]

/-! ### The statements -/

/-- Settles O8: the operation stores the old output byte with one bit replaced, and an output pin reads the bit back. -/
theorem writePinChangesOneOutputBit : Obligations.WritePinChangesOneOutputBit := by
  refine ⟨decode_packCmd_writePin, fun s port pin data hs hp hpin => ?readHalf, fun s port pin l => ?_⟩
  case readHalf =>
    rw [splitStart_of_bitTarget (decode_packCmd_writePin port pin data) rfl hs ⟨hp, hpin⟩, Level.toBit_ofBit]
    rfl
  have hkept := surroundingsKept_after (.writePin port pin l) s
  refine ⟨_, exec_eq .., rsp_after .., hkept, fun hv => ?valid, fun hv => ?invalid⟩
  case valid =>
    have hbit := getLsbD_out_after_writePin_same hv l
    refine ⟨(out_after_writePin hv l).trans (putBit_level_toBit ..), fun i hi => getLsbD_out_after_writePin hv l hi,
      otherRegistersKept_after s rfl, hbit, fun hm hd => ⟨_, exec_eq .., (rsp_after ..).trans ?_⟩⟩
    have hdir : ((after (.writePin port pin l) s).dir port.toNat).getLsbD pin.toNat = true := by
      rw [dir_after_of_out_target rfl, hd]
    have hv' : port.toNat < (after (.writePin port pin l) s).numPorts ∧ pin.toNat < 8 := by rwa [numPorts_after]
    rw [responseOf, pinResponse_of_output hv' (hkept.pinModel.trans hm) hdir, hbit]
    simp only [decide_eq_true_eq]
  case invalid =>
    exact ports_after_of_invalid (Bool.eq_false_iff.mpr (mt (validPortPin_iff s port pin).mp hv))

/-- Settles O9: the operation stores its value as it is, in one access. -/
theorem writePortReplacesOutput : Obligations.WritePortReplacesOutput := by
  refine ⟨decode_packCmd_writePort,
    fun s port pin data => splitStart_of_not_bitTarget (decode_packCmd_writePort port pin data) rfl s,
    fun s port value => ?_⟩
  refine ⟨_, exec_eq .., rsp_after .., surroundingsKept_after .., fun hp => ?valid, fun hp => ?invalid⟩
  case valid =>
    have hout := out_after_writePort hp value
    exact ⟨hout, otherRegistersKept_after s rfl, hout⟩
  case invalid =>
    exact ports_after_of_invalid (Bool.eq_false_iff.mpr (mt (validPort_iff s port).mp hp))

/-- Settles O10: both writes store the bit, and by the one lemma on input pins neither drives the pin. -/
theorem writingAnInputPinOnlyStoresTheBit : Obligations.WritingAnInputPinOnlyStoresTheBit := by
  refine ⟨fun s port pin l hp hpin hd => ?_, fun s port value hp => ⟨_, exec_eq .., fun i hi hd => ?_⟩⟩
  · have hbit := getLsbD_out_after_writePin_same ⟨hp, hpin⟩ l
    have hpads := input_pin_after_of_out_target (i := .writePin port pin l) rfl hpin hd
    rw [hbit] at hpads
    exact ⟨_, exec_eq .., hbit, hpads⟩
  · have hout := out_after_writePort hp value
    have hpads := input_pin_after_of_out_target (i := .writePort port value) rfl hi hd
    rw [hout] at hpads
    exact ⟨by rw [hout], hpads⟩

end Sys2Proof.Machine
end

section
/-! The family 60_exceptions.md: an invalid identifier makes a command a silent no-op, and no command and no ordinary turn stops the
machine. -/

namespace Sys2Proof.Machine

/-! ### Invalid identifiers -/

theorem validPortPin_eq_false {s : State} {port pin : Byte} (h : ¬ port.toNat < s.numPorts ∨ ¬ pin.toNat < 8) :
    validPortPin s port pin = false :=
  Bool.eq_false_iff.mpr (mt (validPortPin_iff s port pin).mp (not_and_or.mpr h))

/-- An operation with an invalid identifier completes and leaves everything but its response as it was (60_exceptions.md R92). -/
theorem exec_of_invalid {i : Instr} {s : State} {r : Response} (h : operandsValid s i = false) (hr : responseOf i s = r) :
    ∃ t, exec i s = .next t ∧ t.ports = s.ports ∧ SurroundingsKept s t ∧ t.rsp = r :=
  ⟨after i s, exec_eq i s, ports_after_of_invalid h, surroundingsKept_after i s, (rsp_after i s).trans hr⟩

/-- Settles O12: by the one lemma on invalid identifiers, with the sentinel as the response of the two reads. -/
theorem invalidIdentifierIsASilentNoOp : Obligations.InvalidIdentifierIsASilentNoOp := by
  refine fun s port pin v d l => ⟨fun hp => ?wholePort, fun hpp => ?singlePin⟩
  case wholePort =>
    have hv : validPort s port = false := Bool.eq_false_iff.mpr (mt (validPort_iff s port).mp hp)
    exact ⟨exec_of_invalid hv rfl, exec_of_invalid hv rfl, exec_of_invalid hv (portResponse_of_invalid hp)⟩
  case singlePin =>
    have hv : validPortPin s port pin = false := validPortPin_eq_false hpp
    exact ⟨exec_of_invalid hv rfl, exec_of_invalid hv rfl, exec_of_invalid hv (pinResponse_of_invalid (not_and_or.mpr hpp))⟩

/-! ### No turn of the six operations stops the machine -/

/-- Whatever a requester's turn is, it answers a next state. -/
theorem requesterTurn_next (r : Nat) (s : State) : ∃ t, requesterTurn r s = .next t := by
  rcases requesterTurn_cases r s with ⟨-, e⟩ | ⟨q, -, ⟨f, -, e⟩ | ⟨-, -, e⟩ | ⟨cmd, f, -, -, -, e⟩ | ⟨cmd, -, -, -, e⟩⟩
  all_goals exact ⟨_, e⟩

theorem takeTurn_next_of_ordinary {turn : Turn} (h : turn.ordinary = true) (s : State) : ∃ t, takeTurn turn s = .next t := by
  cases turn with
  | requester r => exact requesterTurn_next r s
  | environment p e => exact ⟨s.setExt p e, rfl⟩
  | directAccess p k w => cases h

/-- A turn that the schedule leaves open is a requester's, or the run has ended. -/
theorem advance_next_of_no_schedule {s : State} (h : s.schedule = []) : ∃ t, advance s = .next t := by
  rw [advance_of_no_schedule h]
  rcases freeTurn_cases s with ⟨-, e⟩ | ⟨r, -, e⟩ <;> rw [e]
  · exact ⟨s, rfl⟩
  · exact requesterTurn_next r s

/-- Settles O37: every word completes, and so does every turn but an access outside the six operations. -/
theorem theBlockNeverFaultsOrSticks : Obligations.TheBlockNeverFaultsOrSticks := by
  refine ⟨fun s cmd => ⟨afterWord cmd s, runWord_eq cmd s⟩, fun s hl hord => ?_⟩
  rw [step_of_legal hl]
  cases hs : s.schedule with
  | nil => exact advance_next_of_no_schedule hs
  | cons turn rest =>
    rw [advance_of_schedule hs]
    exact takeTurn_next_of_ordinary (hord turn (by rw [hs, List.head?_cons])) _

end Sys2Proof.Machine
end

section
/-! The family of derived statements, on command words: decoder and encoder, the opcode table, the assembler, the register numbers. -/

namespace Sys2Proof

open Machine (decode_packCmd_setupPinDirection decode_packCmd_setupPortDirection decode_packCmd_readPin decode_packCmd_readPort
  decode_packCmd_writePin decode_packCmd_writePort assembleCall csrNum csrOf)

/-! ### Decoder and encoder -/

/-- The canonical word of an operation decodes to it (30_encoding.md R60). -/
theorem decode_encode (i : Instr) : decode (encode i) = .instr i := by
  cases i with
  | setupPinDirection port pin d =>
    rw [encode, decode_packCmd_setupPinDirection, getLsbD_bitData_zero, Direction.ofBit_toBit]
  | setupPortDirection port mask => exact decode_packCmd_setupPortDirection ..
  | readPin port pin => exact decode_packCmd_readPin ..
  | readPort port => exact decode_packCmd_readPort ..
  | writePin port pin l => rw [encode, decode_packCmd_writePin, getLsbD_bitData_zero, Level.ofBit_toBit]
  | writePort port value => exact decode_packCmd_writePort ..

/-- Masking a word masks its fields. -/
theorem and_packCmd (w : CmdWord) (a b c d : Byte) :
    w &&& packCmd a b c d = packCmd (opField w &&& a) (portField w &&& b) (pinField w &&& c) (dataField w &&& d) := by
  rw [← packCmd_and, packCmd_fields]

theorem byte_and_allOnes (v : Byte) : v &&& 0xFF#8 = v := BitVec.and_allOnes

/-- The bit of a single-bit write, alone in its field. -/
theorem dataField_and_one (w : CmdWord) : dataField w &&& 0x01#8 = bitData (dataBit w) := by
  apply BitVec.eq_of_getLsbD_eq
  intro i hi
  by_cases h : i = 0
  · rw [h, getLsbD_bitData_zero, BitVec.getLsbD_and, dataBit, show (0x01#8).getLsbD 0 = true from rfl, Bool.and_true]
  · cases dataBit w <;> simp [bitData, BitVec.getLsbD_one, h]

/-- A word with the used bits `u` of an operation picked out: its opcode and port, and of the other fields what `u` covers. -/
theorem and_usedBits {w u : CmdWord} {op a b : Byte} (ho : (opField w).toNat = op.toNat)
    (hu : u = packCmd 0xFF#8 0xFF#8 a b) : w &&& u = packCmd op (portField w) (pinField w &&& a) (dataField w &&& b) := by
  rw [hu, and_packCmd, byte_and_allOnes, byte_and_allOnes, BitVec.eq_of_toNat_eq ho]

/-- A word of an operation, with its ignored bits cleared, is the operation's canonical word (30_encoding.md R60). -/
theorem encode_of_decode {cmd : CmdWord} {i : Instr} (hd : decode cmd = .instr i) : encode i = cmd &&& i.usedBits := by
  rcases decode_cases cmd with ⟨ho, e⟩ | ⟨ho, e⟩ | ⟨ho, e⟩ | ⟨ho, e⟩ | ⟨ho, e⟩ | ⟨ho, e⟩ | ⟨-, e⟩ <;>
    rw [e] at hd <;> cases hd <;> rw [encode, Instr.usedBits]
  · rw [and_usedBits (op := 0x00#8) ho (by decide : _ = packCmd _ _ 0xFF#8 0x01#8), byte_and_allOnes, dataField_and_one,
      Direction.toBit_ofBit]
  · rw [and_usedBits (op := 0x01#8) ho (by decide : _ = packCmd _ _ 0x00#8 0xFF#8), byte_and_allOnes, BitVec.and_zero]
  · rw [and_usedBits (op := 0x02#8) ho (by decide : _ = packCmd _ _ 0xFF#8 0x00#8), byte_and_allOnes, BitVec.and_zero]
  · rw [and_usedBits (op := 0x03#8) ho (by decide : _ = packCmd _ _ 0x00#8 0x00#8), BitVec.and_zero, BitVec.and_zero]
  · rw [and_usedBits (op := 0x04#8) ho (by decide : _ = packCmd _ _ 0xFF#8 0x01#8), byte_and_allOnes, dataField_and_one,
      Level.toBit_ofBit]
  · rw [and_usedBits (op := 0x05#8) ho (by decide : _ = packCmd _ _ 0x00#8 0xFF#8), byte_and_allOnes, BitVec.and_zero]

/-- A word with no bit outside a mask is not changed by the mask. -/
theorem and_eq_self_of_and_not_eq_zero {w u : CmdWord} (h : w &&& ~~~ u = 0#32) : w &&& u = w :=
  calc w &&& u = (w &&& u) ||| (w &&& ~~~ u) := by rw [h, BitVec.or_zero]
    _ = w := by
      apply BitVec.eq_of_getLsbD_eq
      intro i hi
      rw [BitVec.getLsbD_or, BitVec.getLsbD_and, BitVec.getLsbD_and, BitVec.getLsbD_not]
      cases u.getLsbD i <;> simp [hi]

/-- Settles O23: the two directions of R60, and a word without ignored bits is its own masked self. -/
theorem decodeAndEncodeAgree : Obligations.DecodeAndEncodeAgree :=
  ⟨decode_encode, fun _ _ => encode_of_decode,
    fun _ _ hd h => (encode_of_decode hd).trans (and_eq_self_of_and_not_eq_zero h)⟩

/-! ### The opcode table -/

/-- Every row tests the opcode field and no other bit (30_encoding.md R53). -/
theorem mask_and_matchBits_of_mem {r : OpcodeRow} (hr : r ∈ opcodeTable) :
    r.mask = packCmd 0xFF#8 0x00#8 0x00#8 0x00#8 ∧ r.matchBits = packCmd (opField r.matchBits) 0x00#8 0x00#8 0x00#8 := by
  revert r
  decide

theorem hits_eq_of_mem {r : OpcodeRow} (hr : r ∈ opcodeTable) (w : CmdWord) :
    r.hits w = (opField w == opField r.matchBits) := by
  obtain ⟨hmask, hmatch⟩ := mask_and_matchBits_of_mem hr
  have hand : w &&& r.mask = packCmd (opField w) 0x00#8 0x00#8 0x00#8 := by
    rw [hmask, and_packCmd, byte_and_allOnes, BitVec.and_zero, BitVec.and_zero, BitVec.and_zero]
  rw [OpcodeRow.hits, hand, Bool.eq_iff_iff, beq_iff_eq, beq_iff_eq]
  constructor
  · intro h
    rw [← h, opField_packCmd]
  · intro h
    rw [h, ← hmatch]

/-- The rows that a word hits are those with its opcode. -/
theorem filter_hits (w : CmdWord) : (opcodeTable.filter fun r => r.hits w) =
    opcodeTable.filter fun r => opField w == opField r.matchBits :=
  List.filter_congr fun _ hr => hits_eq_of_mem hr w

/-- Settles O25: the hit rows are those with the word's opcode, one for each opcode below 6 and none for the others. -/
theorem everyWordHitsItsOwnRowOnly : Obligations.EveryWordHitsItsOwnRowOnly := by
  intro cmd
  have row (op : Byte) (ho : (opField cmd).toNat = op.toNat) : (opcodeTable.filter fun r => r.hits cmd) =
      opcodeTable.filter fun r => op == opField r.matchBits := by rw [filter_hits, BitVec.eq_of_toNat_eq ho]
  rcases decode_cases cmd with ⟨ho, e⟩ | ⟨ho, e⟩ | ⟨ho, e⟩ | ⟨ho, e⟩ | ⟨ho, e⟩ | ⟨ho, e⟩ | ⟨ho, e⟩ <;> rw [e]
  · exact congrArg (List.map OpcodeRow.mnemonic) (row 0x00#8 ho)
  · exact congrArg (List.map OpcodeRow.mnemonic) (row 0x01#8 ho)
  · exact congrArg (List.map OpcodeRow.mnemonic) (row 0x02#8 ho)
  · exact congrArg (List.map OpcodeRow.mnemonic) (row 0x03#8 ho)
  · exact congrArg (List.map OpcodeRow.mnemonic) (row 0x04#8 ho)
  · exact congrArg (List.map OpcodeRow.mnemonic) (row 0x05#8 ho)
  · refine ⟨rfl, ?_⟩
    rw [filter_hits, List.filter_eq_nil_iff]
    intro r hr h
    have hlow : ∀ r ∈ opcodeTable, (opField r.matchBits).toNat < 6 := by decide
    have := hlow r hr
    rw [← beq_iff_eq.mp h] at this
    omega

/-- Settles O26, by running the decoder on the nine words. -/
theorem sampleWordsDecode : Obligations.SampleWordsDecode := by
  unfold Obligations.SampleWordsDecode
  decide

/-! ### The assembler -/

/-- The word of four fields, as a number (30_encoding.md R51). -/
theorem toNat_packCmd (op port pin data : Byte) : (packCmd op port pin data).toNat =
    op.toNat * 2 ^ 24 + port.toNat * 2 ^ 16 + pin.toNat * 2 ^ 8 + data.toNat := by
  have append {n : Nat} (x : BitVec n) (y : Byte) : (x ++ y).toNat = x.toNat * 2 ^ 8 + y.toNat := by
    rw [BitVec.toNat_append, ← Nat.shiftLeft_add_eq_or_of_lt y.isLt, Nat.shiftLeft_eq]
  rw [packCmd, append, append, append]
  omega

/-- The word of four fields given as integers that fit. -/
theorem packCmd_ofNat (op : Byte) {port pin data : Nat} (hport : port ≤ 255) (hpin : pin ≤ 255) (hdata : data ≤ 255) :
    packCmd op (BitVec.ofNat 8 port) (BitVec.ofNat 8 pin) (BitVec.ofNat 8 data) =
      BitVec.ofNat 32 (op.toNat * 2 ^ 24 + port * 2 ^ 16 + pin * 2 ^ 8 + data) := by
  have hop := op.isLt
  apply BitVec.eq_of_toNat_eq
  rw [toNat_packCmd, BitVec.toNat_ofNat, BitVec.toNat_ofNat, BitVec.toNat_ofNat, BitVec.toNat_ofNat]
  omega

theorem fitsField_iff (n : Nat) : fitsField n = true ↔ n ≤ 255 := decide_eq_true_iff

/-- The assembler's answer for a call that stands for `i` where its integers fit. -/
theorem assembleCall_eq {c : Call} {i : Instr} {w : CmdWord} {p : Prop} [Decidable p] (hp : c.wellFormed = true ↔ p)
    (hi : c.toInstr = if c.wellFormed then some i else none) (hw : p → encode i = w) :
    assembleCall c = if p then some w else none := by
  rw [assembleCall, hi]
  by_cases h : p
  · rw [if_pos (hp.mpr h), if_pos h, Option.map_some, hw h]
  · rw [if_neg (mt hp.mp h), if_neg h, Option.map_none]

theorem fitsField_and_iff (m n : Nat) : (fitsField m && fitsField n) = true ↔ m ≤ 255 ∧ n ≤ 255 := by
  rw [Bool.and_eq_true, fitsField_iff, fitsField_iff]

/-- The data byte of a single-bit write, from the integer that stands for its bit. -/
theorem ofNat_eq_bitData {p : Prop} [Decidable p] : BitVec.ofNat 8 (if p then 1 else 0) = bitData (decide p) := by
  by_cases h : p <;> simp [bitData, h]

/-- Settles O27: a call assembles where its integers fit, and its canonical word is the number of its four fields. -/
theorem assemblerPlacesTheOperands : Obligations.AssemblerPlacesTheOperands := by
  refine fun port pin v d l => ⟨?setupPinDirection, ?setupPortDirection, ?readPin, ?readPort, ?writePin, ?writePort⟩
  case setupPinDirection =>
    refine assembleCall_eq (fitsField_and_iff port pin) rfl fun ⟨hport, hpin⟩ => ?_
    have h := packCmd_ofNat 0x00#8 hport hpin (data := if d = .output then 1 else 0) (by split <;> decide)
    rw [ofNat_eq_bitData, ← Direction.toBit_eq] at h
    simpa [encode] using h
  case setupPortDirection =>
    refine assembleCall_eq (fitsField_and_iff port v) rfl fun ⟨hport, hv⟩ => ?_
    simpa [encode] using packCmd_ofNat 0x01#8 hport (Nat.zero_le _) hv
  case readPin =>
    refine assembleCall_eq (fitsField_and_iff port pin) rfl fun ⟨hport, hpin⟩ => ?_
    simpa [encode] using packCmd_ofNat 0x02#8 hport hpin (Nat.zero_le _)
  case readPort =>
    refine assembleCall_eq (fitsField_iff port) rfl fun hport => ?_
    simpa [encode] using packCmd_ofNat 0x03#8 hport (Nat.zero_le _) (Nat.zero_le _)
  case writePin =>
    refine assembleCall_eq (fitsField_and_iff port pin) rfl fun ⟨hport, hpin⟩ => ?_
    have h := packCmd_ofNat 0x04#8 hport hpin (data := if l = .high then 1 else 0) (by split <;> decide)
    rw [ofNat_eq_bitData, ← Level.toBit_eq] at h
    simpa [encode] using h
  case writePort =>
    refine assembleCall_eq (fitsField_and_iff port v) rfl fun ⟨hport, hv⟩ => ?_
    simpa [encode] using packCmd_ofNat 0x05#8 hport (Nat.zero_le _) hv

/-! ### Register numbers -/

/-- Settles O28: division by 4 gives back the port, the remainder the kind. -/
theorem registerNumbersNameTheirRegisters : Obligations.RegisterNumbersNameTheirRegisters := by
  intro numPorts p hp
  have named (k : Nat) (hk : k < 4) : (4 * p + k) / 4 = p ∧ (4 * p + k) % 4 = k := by omega
  refine ⟨fun k => ?_, ?_⟩
  · cases k with
    | dir => simp [csrOf, csrNum, hp]
    | out => simp [csrOf, csrNum, named 1, hp]
    | inp => simp [csrOf, csrNum, named 2, hp]
  · simp [csrOf, named 3, hp]

end Sys2Proof
end

section
/-! The family of derived statements, on registers and pins: two commands in a row, what a command does not look at, the pads. -/

namespace Sys2Proof.Machine

theorem execAll_pair (i j : Instr) (s : State) : execAll [i, j] s = .next (after j (after i s)) := by
  simp only [execAll, exec_eq]

/-! ### What an operation does not look at -/

/-- The byte an operation stores depends on the registers of the kind it writes alone (40_operation_common.md section 4). -/
theorem storedByte_congr_of_target {i : Instr} {s s' : State} {k : StoredKind} {port : Byte}
    (hw : writeTarget i = some (k, port)) (h : ∀ p, s'.stored p k = s.stored p k) : storedByte i s' = storedByte i s := by
  cases hb : bitTarget i with
  | none => exact storedByte_of_not_bitTarget hb _ _
  | some target => rw [storedByte_of_bitTarget hb hw, storedByte_of_bitTarget hb hw, h]

/-- What an operation leaves in the registers of a kind depends on the registers of that kind alone. -/
theorem stored_after_congr {i : Instr} {s s' : State} {k : StoredKind} (hn : s'.numPorts = s.numPorts)
    (h : ∀ p, s'.stored p k = s.stored p k) (p : Nat) : (after i s').stored p k = (after i s).stored p k := by
  rw [stored_after, stored_after, operandsValid_congr hn, h]
  split
  next ht =>
    obtain ⟨port, hw, -, -⟩ := ht
    exact storedByte_congr_of_target hw h
  next => rfl

theorem responseOf_of_target {i : Instr} {target : StoredKind × Byte} (hw : writeTarget i = some target) (s : State) :
    responseOf i s = .none := by
  cases i with
  | readPin _ _ | readPort _ => cases hw
  | setupPinDirection _ _ _ | setupPortDirection _ _ | writePin _ _ _ | writePort _ _ => rfl

/-- The response of an operation depends on the registers through the levels alone (40_operation_common.md section 4). -/
theorem responseOf_congr {s s' : State} (hn : s'.numPorts = s.numPorts) (hl : ∀ p, s'.level p = s.level p) (i : Instr) :
    responseOf i s' = responseOf i s := by
  cases i with
  | readPin port pin => exact pinResponse_congr hn (hl _) pin
  | readPort port => exact portResponse_congr hn (hl _)
  | setupPinDirection _ _ _ | setupPortDirection _ _ | writePin _ _ _ | writePort _ _ => rfl

/-- Settles O18: an operation's own kind of register depends on that kind alone, it keeps the other kind, and it responds none
or what the levels say. -/
theorem directionAndOutputDoNotInterfere : Obligations.DirectionAndOutputDoNotInterfere := by
  refine fun s s' hn => ⟨?writes, ?directions, ?reads⟩
  case writes =>
    rintro hout i _ port hw rfl t t' ht ht'
    cases (exec_eq i s).symm.trans ht
    cases (exec_eq i s').symm.trans ht'
    refine ⟨fun p => ⟨stored_after_congr (k := .out) hn hout p, dir_after_of_out_target hw s' p⟩, ?_⟩
    rw [rsp_after, rsp_after, responseOf_of_target hw, responseOf_of_target hw]
  case directions =>
    rintro hdir i _ port hw rfl t t' ht ht'
    cases (exec_eq i s).symm.trans ht
    cases (exec_eq i s').symm.trans ht'
    refine ⟨fun p => ⟨stored_after_congr (k := .dir) hn hdir p, out_after_of_dir_target hw s' p⟩, ?_⟩
    rw [rsp_after, rsp_after, responseOf_of_target hw, responseOf_of_target hw]
  case reads =>
    intro hlevel i _ t t' ht ht'
    cases (exec_eq i s).symm.trans ht
    cases (exec_eq i s').symm.trans ht'
    rw [rsp_after, rsp_after, responseOf_congr hn hlevel]

/-! ### Two commands in a row -/

theorem putBit_eq_self_iff (v : Byte) {i : Nat} (hi : i < 8) (b : Bool) : putBit v i b = v ↔ v.getLsbD i = b :=
  ⟨fun h => by rw [← h, getLsbD_putBit_same v hi], putBit_eq_self⟩

/-- Of two writes to one pin the second alone shows in the register. -/
theorem out_after_writePin_writePin {s : State} {port pin : Byte} (hv : port.toNat < s.numPorts ∧ pin.toNat < 8)
    (l l' : Level) : (after (.writePin port pin l') (after (.writePin port pin l) s)).out port.toNat =
      putBit (s.out port.toNat) pin.toNat l'.toBit := by
  rw [out_after_writePin (by rwa [numPorts_after]), out_after_writePin hv, putBit_putBit_same]

/-- Settles O11: the register is left as by the second write alone, which changes nothing exactly where the bit was 0. -/
theorem highThenLowClearsTheBit : Obligations.HighThenLowClearsTheBit := by
  intro s port pin hp hpin
  refine ⟨_, execAll_pair .., ?_⟩
  rw [out_after_writePin_writePin ⟨hp, hpin⟩]
  exact ⟨fun i hi => getLsbD_putBit _ _ _ hi, putBit_eq_self_iff _ hpin _⟩

/-- With loopback an output pin shows its output bit (10_state.md R17). -/
theorem getLsbD_level_of_output {s : State} {p i : Nat} (hi : i < 8) (hm : s.pinModel = .loopback)
    (hd : (s.dir p).getLsbD i = true) : (s.level p).getLsbD i = (s.out p).getLsbD i := by
  rw [getLsbD_level s p hi, if_pos ⟨hd, hm⟩]

/-- Settles O21: the read responds with the level, and an output pin's level is the bit just written. -/
theorem readBackHasNoDelay : Obligations.ReadBackHasNoDelay := by
  intro s port value hp hm
  have hkept := surroundingsKept_after (.writePort port value) s
  refine ⟨_, _, _, exec_eq .., exec_eq .., (rsp_after ..).trans (portResponse_of_valid (by rwa [numPorts_after])),
    fun i hi hd => ?_⟩
  have hdir : ((after (.writePort port value) s).dir port.toNat).getLsbD i = true := by
    rw [dir_after_of_out_target rfl, hd]
  rw [getLsbD_level_of_output hi (hkept.pinModel.trans hm) hdir, out_after_writePort hp]

/-- An output and a direction operation may change places: each leaves alone what the other one looks at (rule R111). -/
theorem registersKept_after_swap {i j : Instr} {port port' : Byte} (hi : writeTarget i = some (.out, port))
    (hj : writeTarget j = some (.dir, port')) (s : State) : RegistersKept (after j (after i s)) (after i (after j s)) := by
  intro p k
  cases k with
  | dir =>
    calc (after i (after j s)).dir p = (after j s).dir p := dir_after_of_out_target hi _ p
      _ = (after j (after i s)).dir p :=
        (stored_after_congr (k := .dir) (numPorts_after i s) (dir_after_of_out_target hi s) p).symm
  | out =>
    calc (after i (after j s)).out p = (after i s).out p :=
        stored_after_congr (k := .out) (numPorts_after j s) (out_after_of_dir_target hj s) p
      _ = (after j (after i s)).out p := (out_after_of_dir_target hj _ p).symm

/-- A pin that becomes an output is driven at the bit its output register holds (rule R111). -/
theorem output_pin_after_setupPinDirection {s : State} {port pin : Byte} (hv : port.toNat < s.numPorts ∧ pin.toNat < 8) :
    ((after (.setupPinDirection port pin .output) s).padOe port.toNat).getLsbD pin.toNat = true ∧
    (after (.setupPinDirection port pin .output) s).padOut port.toNat = s.out port.toNat ∧
    (s.pinModel = .loopback → ((after (.setupPinDirection port pin .output) s).level port.toNat).getLsbD pin.toNat =
      (s.out port.toNat).getLsbD pin.toNat) := by
  have hdir := (getLsbD_dir_after_setupPinDirection hv .output hv.2).trans (if_pos rfl)
  have hout := out_after_of_dir_target (i := .setupPinDirection port pin .output) rfl s port.toNat
  refine ⟨hdir, hout, fun hm => ?_⟩
  rw [getLsbD_level_of_output hv.2 ((surroundingsKept_after ..).pinModel.trans hm) hdir, hout]

/-- Settles O22: the output bit is written before the direction bit lets the pin show it, and the two commands commute. -/
theorem pinComesUpAtTheHeldLevel : Obligations.PinComesUpAtTheHeldLevel := by
  intro s port pin l hp hpin
  have hbit := getLsbD_out_after_writePin_same ⟨hp, hpin⟩ l
  have hkept := surroundingsKept_after (.writePin port pin l) s
  obtain ⟨hoe, hout, hlevel⟩ := output_pin_after_setupPinDirection (s := after (.writePin port pin l) s)
    (port := port) (pin := pin) ⟨by rwa [numPorts_after], hpin⟩
  exact ⟨_, _, execAll_pair .., execAll_pair .., hoe, by rw [hout, hbit],
    fun hm => (hlevel (hkept.pinModel.trans hm)).trans hbit, registersKept_after_swap rfl rfl s⟩

/-! ### The pads -/

/-- Settles O20: the pad buses are the registers, and a pull-up enable is the output bit of an input pin, in every state. -/
theorem padBusesFollowTheRegisters : Obligations.PadBusesFollowTheRegisters :=
  fun _ _ t p _ _ hj => ⟨rfl, rfl, getLsbD_padPu t p hj⟩

end Sys2Proof.Machine
end

section
/-! The family of derived statements, on the run: the step a requester's turn makes, and what is observable of it. -/

namespace Sys2Proof.Machine

/-! ### The step of a scheduled requester -/

theorem step_of_requester {s : State} {r : Nat} {rest : List Turn} (hl : s.legal = true)
    (ht : s.schedule = .requester r :: rest) : step s = requesterTurn r { s with schedule := rest } := by
  rw [step_of_legal hl, advance_of_schedule ht, takeTurn]

theorem bitTarget_operandsValid {i : Instr} {k : StoredKind} {port pin : Byte} {b : Bool}
    (hb : bitTarget i = some (k, port, pin, b)) (s : State) : operandsValid s i = validPortPin s port pin := by
  cases i <;> cases hb <;> rfl

/-- The step of a requester whose next word is not split is the whole command (40_operation_common.md R65). -/
theorem step_of_unsplit {s : State} {r : Nat} {rest : List Turn} {q : Requester} {cmd : CmdWord} (hl : s.legal = true)
    (ht : s.schedule = .requester r :: rest) (hq : s.requesters[r]? = some q) (hf : q.inFlight = none)
    (hw : q.nextWord = some cmd) (hs : s.splitStart cmd = none) :
    step s = .next ((afterWord cmd { s with schedule := rest }).complete r) := by
  rw [step_of_requester hl ht]
  exact requesterTurn_of_unsplit hq hf hw hs

/-- The first step of a split operation is its read half (20_memory.md R41). -/
theorem step_of_readHalf {s : State} {r : Nat} {rest : List Turn} {q : Requester} {cmd : CmdWord} {f : InFlight}
    (hl : s.legal = true) (ht : s.schedule = .requester r :: rest) (hq : s.requesters[r]? = some q) (hf : q.inFlight = none)
    (hw : q.nextWord = some cmd) (hs : s.splitStart cmd = some f) :
    step s = .next (({ s with schedule := rest } : State).hold r f) := by
  have hs' : ({ s with schedule := rest } : State).splitStart cmd = some f := hs
  rw [step_of_requester hl ht]
  simp [requesterTurn, hq, hf, hw, hs']

/-- The step of a requester with a half-done operation is the write half (20_memory.md R41). -/
theorem step_of_writeHalf {s : State} {r : Nat} {rest : List Turn} {q : Requester} {f : InFlight} (hl : s.legal = true)
    (ht : s.schedule = .requester r :: rest) (hq : s.requesters[r]? = some q) (hf : q.inFlight = some f) :
    step s = .next ((({ s with schedule := rest } : State).finishBitWrite f).complete r) := by
  rw [step_of_requester hl ht]
  simp [requesterTurn, hq, hf]

theorem splitStart_of_reserved {cmd : CmdWord} {op : Byte} (hd : decode cmd = .reserved op) (s : State) :
    s.splitStart cmd = none := by
  simp [State.splitStart, hd]

theorem splitStart_of_invalid {s : State} {cmd : CmdWord} {i : Instr} (hd : decode cmd = .instr i)
    (hv : operandsValid s i = false) : s.splitStart cmd = none := by
  cases e : s.splitStart cmd with
  | none => rfl
  | some f =>
    obtain ⟨i', hd', hb, -, hvalid, -⟩ := splitStart_eq_some e
    cases hd.symm.trans hd'
    rw [← bitTarget_operandsValid hb, hv] at hvalid
    cases hvalid

/-- Settles O29: the step is the whole command, which is the decoded operation or, for a reserved word, the no-op. -/
theorem stepRunsTheDecodedInstruction : Obligations.StepRunsTheDecodedInstruction := by
  refine ⟨fun s r rest q cmd i hl ht hq hf hw hd hsplit => ?scheduled, fun s q cmd i hl ht hr hf hw hd => ?alone,
    fun s r rest q cmd op hl ht hq hf hw hd => ?reserved⟩
  case scheduled =>
    have hs : s.splitStart cmd = none := by
      rcases hsplit with h | h | h
      · exact splitStart_eq_none_of_not_splits h cmd
      · exact splitStart_of_not_bitTarget hd h s
      · exact splitStart_of_invalid hd h
    rw [step_of_unsplit hl ht hq hf hw hs, afterWord_of_instr hd, exec_eq, mapNext]
  case alone => rw [step_of_one_requester hl ht hr hf hw, afterWord_of_instr hd, exec_eq, mapNext]
  case reserved =>
    rw [step_of_unsplit hl ht hq hf hw (splitStart_of_reserved hd s), afterWord_of_reserved hd, execReserved, mapNext]

/-! ### A placed word -/

theorem nextWord_present (q : Requester) (cmd : CmdWord) : (q.present cmd).nextWord = some cmd := by
  have hlen : (q.program.take q.index).length = min q.index q.program.length := List.length_take
  rw [Requester.nextWord, Requester.present, ← hlen, List.getElem?_append_right (Nat.le_refl _), Nat.sub_self,
    List.getElem?_cons_zero]

theorem decode_tableWord {nbits w : Nat} {i : Instr} (h : decodeTableWord nbits w = some i) :
    decode (tableWord nbits w) = .instr i := by
  unfold decodeTableWord at h
  split at h
  next hd =>
    cases h
    exact hd
  next => cases h

/-- Settles O30: requester 0 presents the placed word and has the turn, so its step is that whole command. -/
theorem placedWordRunsNext : Obligations.PlacedWordRunsNext := by
  intro s nbits w i hl hs hd
  have hlen : (s.withFetchWord nbits w).requesters.length = s.requesters.length := by simp
  obtain ⟨q, hq⟩ : ∃ q, s.requesters[0]? = some q := by
    obtain ⟨-, -, hr⟩ := (legal_iff s).mp hl
    exact ⟨_, List.getElem?_eq_getElem hr⟩
  have hq' : (s.withFetchWord nbits w).requesters[0]? = some (q.present (tableWord nbits w)) := by
    simp [hq]
  have hl' : (s.withFetchWord nbits w).legal = true := (legal_congr (s := s) (t := s.withFetchWord nbits w) rfl hlen).trans hl
  have hs' : (s.withFetchWord nbits w).splits = false := (splits_congr (s := s) (t := s.withFetchWord nbits w) rfl hlen).trans hs
  rw [step_of_unsplit hl' rfl hq' rfl (nextWord_present ..) (splitStart_eq_none_of_not_splits hs' _),
    afterWord_of_instr (decode_tableWord hd), exec_eq, mapNext]

/-! ### What is observable of a command that does nothing -/

/-- Of what is observable, only the responses are no function of the triples (70_reset_and_hazards.md R114). -/
theorem observe_of_ports_eq {s t : State} (h : t.ports = s.ports) :
    t.observe = { s.observe with responses := t.requesters.map Requester.responses } := by
  have hn : t.numPorts = s.numPorts := congrArg List.length h
  have hport : t.port = s.port := by
    funext p
    rw [State.port, h, State.port]
  have hdir : t.dir = s.dir := by
    funext p
    rw [State.dir, hport, State.dir]
  have hout : t.out = s.out := by
    funext p
    rw [State.out, hport, State.out]
  have hpu : t.padPu = s.padPu := by
    funext p
    rw [State.padPu, hdir, hout, State.padPu]
  have hoe : t.padOe = s.padOe := hdir
  have hpo : t.padOut = s.padOut := hout
  simp only [State.observe, hn, hdir, hout, hoe, hpo, hpu]

/-- A word with no valid operation leaves the triples alone. -/
theorem ports_afterWord_of_invalid {cmd : CmdWord} {s : State}
    (h : ∀ i, decode cmd = .instr i → operandsValid s i = false) : (afterWord cmd s).ports = s.ports := by
  cases hd : decode cmd with
  | instr i => rw [afterWord_of_instr hd, ports_after_of_invalid (h i hd)]
  | reserved op => rw [afterWord_of_reserved hd, ports_respond]

/-- A word with no valid operation responds with the sentinel where it is a read, and with nothing elsewhere. -/
theorem rsp_afterWord_of_invalid {cmd : CmdWord} {s : State}
    (h : ∀ i, decode cmd = .instr i → operandsValid s i = false) : (afterWord cmd s).rsp =
      if (opField cmd).toNat = 2 ∨ (opField cmd).toNat = 3 then .byte 0x00#8 else .none := by
  by_cases h2 : (opField cmd).toNat = 2
  · have hv : validPortPin s _ _ = false := h (.readPin (portField cmd) (pinField cmd)) (by simp [decode, h2])
    rw [rsp_afterWord_of_readPin_op h2, if_pos (.inl h2), State.pinResponse, if_neg (by simp [hv]), sentinel]
  · by_cases h3 : (opField cmd).toNat = 3
    · have hv : validPort s _ = false := h (.readPort (portField cmd)) (by simp [decode, h3])
      rw [rsp_afterWord_of_readPort_op h3, if_pos (.inr h3), State.portResponse, if_neg (by simp [hv]), sentinel]
    · rw [rsp_afterWord_of_not_read h2 h3, if_neg (not_or.mpr ⟨h2, h3⟩)]

/-- Settles O32: the triples stay, and so does all of the observation but the list that the one response joins. -/
theorem noOpShowsInTheResponseOnly : Obligations.NoOpShowsInTheResponseOnly := by
  intro s q cmd hl ht hr hf hw hinv
  refine ⟨_, step_of_one_requester hl ht hr hf hw, ?_⟩
  have hports : ((afterWord cmd s).complete 0).ports = s.ports := ports_afterWord_of_invalid hinv
  rw [observe_of_ports_eq hports, requesters_complete, (surroundingsKept_afterWord cmd s).requesters, hr,
    rsp_afterWord_of_invalid hinv]
  rfl

/-! ### The two halves of a split operation -/

/-- Settles O33: each half is the step of its own, one with no register write, one with the write of the byte held. -/
theorem splitOperationReadsThenWrites : Obligations.SplitOperationReadsThenWrites := by
  refine ⟨fun s r rest q cmd i k port pin b hl hs ht hq hf hw hd hb hp hpin => ?readHalf,
    fun s r rest q f hl ht hq hf hp => ?writeHalf⟩
  case readHalf =>
    have hstart := splitStart_of_bitTarget hd hb hs ⟨hp, hpin⟩
    exact ⟨_, step_of_readHalf hl ht hq hf hw hstart, rfl, rfl, rfl, modify_eq_set hq _⟩
  case writeHalf =>
    refine ⟨_, step_of_writeHalf hl ht hq hf, rfl, rfl, fun j hj => ?_, fun p k hne => ?_, modify_eq_set hq _⟩
    · rw [stored_complete, stored_finishBitWrite, if_pos ⟨rfl, rfl, hp⟩, getLsbD_putBit _ _ _ hj]
    · rw [stored_complete, stored_finishBitWrite, if_neg fun h => hne ⟨h.1, h.2.1⟩, stored_schedule]

/-! ### Where a step is refused -/

/-- Of the turns only a direct access is refused: the ordinary ones answer a next state. -/
theorem directAccess_of_takeTurn_refused {turn : Turn} {s : State} {e : Refusal} (h : takeTurn turn s = .refused e) :
    ∃ p k w, turn = .directAccess p k w := by
  cases hord : turn.ordinary with
  | true =>
    obtain ⟨t, ht⟩ := takeTurn_next_of_ordinary hord s
    cases h.symm.trans ht
  | false =>
    cases turn with
    | directAccess p k w => exact ⟨p, k, w, rfl⟩
    | requester _ | environment _ _ => cases hord

/-- Settles O38: a refusal needs parameters out of range or a direct access, since every other turn answers a next state. -/
theorem onlyTheModelBoundaryIsRefused : Obligations.OnlyTheModelBoundaryIsRefused := by
  refine ⟨fun s h => ?parameters, fun s p k w rest hl ht => ?access, fun s e he => ?only⟩
  case parameters =>
    have hl : ¬ s.legal = true := by
      rw [legal_iff]
      rintro ⟨hlow, hhigh, hr⟩
      rcases h with h | h | h
      · omega
      · omega
      · rw [h] at hr
        cases hr
    rw [step, if_neg hl]
  case access => rw [step_of_legal hl, advance_of_schedule ht, takeTurn]
  case only =>
    cases hl : s.legal with
    | false => exact .inl rfl
    | true =>
      rw [step_of_legal hl] at he
      cases hs : s.schedule with
      | nil =>
        obtain ⟨t, ht⟩ := advance_next_of_no_schedule hs
        cases he.symm.trans ht
      | cons turn rest =>
        rw [advance_of_schedule hs] at he
        obtain ⟨p, k, w, rfl⟩ := directAccess_of_takeTurn_refused he
        exact .inr ⟨p, k, w, rest, rfl⟩

/-! ### A requester whose command is done -/

/-- The requester with the response `x` to the command it has done, as `State.complete` leaves it. -/
def Requester.completed (q : Requester) (x : Response) : Requester :=
  { q with index := q.index + 1, inFlight := none, responses := q.responses ++ [x] }

theorem requesters_complete_eq_set {s : State} {r : Nat} {q : Requester} (hq : s.requesters[r]? = some q) :
    (s.complete r).requesters = s.requesters.set r (q.completed s.rsp) := modify_eq_set hq _

/-! ### Two requesters that write pins of one port -/

/-- A point in a run of pin writes to `port`: who may split (`atomic`), the byte `v` that `OUT[port]` holds, the requesters `qs`
and the turns to come. -/
structure PinRun (atomic : Bool) (port v : Byte) (qs : List Requester) (turns : List Turn) (s : State) : Prop where
  legal : s.legal = true
  rmwAtomic : s.rmwAtomic = atomic
  port_lt : port.toNat < s.numPorts
  out : s.out port.toNat = v
  requesters : s.requesters = qs
  schedule : s.schedule = turns

section
variable {atomic : Bool} {port v : Byte} {qs : List Requester} {r : Nat} {rest : List Turn} {s : State} {q : Requester}

/-- A command that comes to its end goes on to a point with a new byte in `OUT[port]`, and the requester moved on. -/
theorem PinRun.of_complete {u : State} {v' : Byte} (h : PinRun atomic port v qs (.requester r :: rest) s)
    (hkept : SurroundingsKept { s with schedule := rest } u) (hrsp : u.rsp = .none) (hq : qs[r]? = some q)
    (hout : u.out port.toNat = v') : 
      PinRun atomic port v' (qs.set r (q.completed .none)) rest (u.complete r) where
  legal := by
    have hlen : (u.complete r).requesters.length = s.requesters.length := by simp [hkept.requesters]
    exact (legal_congr (s := s) (t := u.complete r) hkept.numPorts hlen).trans h.legal
  rmwAtomic := hkept.rmwAtomic.trans h.rmwAtomic
  port_lt := by
    have hn : (u.complete r).numPorts = s.numPorts := hkept.numPorts
    rw [hn]
    exact h.port_lt
  out := hout
  requesters := by
    have hr : u.requesters = qs := hkept.requesters.trans h.requesters
    rw [requesters_complete_eq_set (by rwa [hr]), hr, hrsp]
  schedule := hkept.schedule

theorem legal_hold (s : State) (r : Nat) (f : InFlight) : (s.hold r f).legal = s.legal := legal_congr rfl (by simp)

/-- Where requesters split, a pin write begins by holding the byte of `OUT[port]`, and changes nothing else. -/
theorem PinRun.readHalf {pin : Byte} {l : Level} (h : PinRun false port v qs (.requester r :: rest) s)
    (hlen : 1 < qs.length) (hq : qs[r]? = some q) (hf : q.inFlight = none)
    (hw : q.nextWord = some (encode (.writePin port pin l))) (hpin : pin.toNat < 8) : ∃ t, step s = .next t ∧
      PinRun false port v
        (qs.set r { q with inFlight := some { kind := .out, port := port, pin := pin, value := l.toBit, t := v } }) rest t := by
  have hq' : s.requesters[r]? = some q := by rw [h.requesters, hq]
  have hs : s.splits = true := (splits_iff s).mpr ⟨h.rmwAtomic, by rwa [h.requesters]⟩
  have hstart := splitStart_of_bitTarget (decode_encode (.writePin port pin l)) rfl hs ⟨h.port_lt, hpin⟩
  refine ⟨_, step_of_readHalf h.legal h.schedule hq' hf hw hstart, ?_⟩
  refine ⟨(legal_hold ..).trans h.legal, h.rmwAtomic, h.port_lt, h.out, ?_, rfl⟩
  rw [← h.out, ← h.requesters]
  exact modify_eq_set hq' _

/-- The write half puts the pin's bit into the byte it holds, whatever `OUT[port]` holds by then. -/
theorem PinRun.writeHalf {pin t : Byte} {b : Bool} (h : PinRun atomic port v qs (.requester r :: rest) s)
    (hq : qs[r]? = some q) (hf : q.inFlight = some { kind := .out, port := port, pin := pin, value := b, t := t }) :
    ∃ u, step s = .next u ∧ PinRun atomic port (putBit t pin.toNat b)
      (qs.set r (q.completed .none)) rest u := by
  have hq' : s.requesters[r]? = some q := by rw [h.requesters, hq]
  refine ⟨_, step_of_writeHalf h.legal h.schedule hq' hf, h.of_complete (surroundingsKept_finishBitWrite ..) rfl hq ?_⟩
  exact (stored_finishBitWrite _ _ port.toNat .out).trans (if_pos ⟨rfl, rfl, h.port_lt⟩)

/-- Where nothing splits, a pin write puts its bit into `OUT[port]` in one step. -/
theorem PinRun.command {pin : Byte} {l : Level} (h : PinRun true port v qs (.requester r :: rest) s)
    (hq : qs[r]? = some q) (hf : q.inFlight = none) (hw : q.nextWord = some (encode (.writePin port pin l)))
    (hpin : pin.toNat < 8) : ∃ u, step s = .next u ∧ PinRun true port (putBit v pin.toNat l.toBit)
      (qs.set r (q.completed .none)) rest u := by
  have hq' : s.requesters[r]? = some q := by rw [h.requesters, hq]
  have hs : s.splits = false := by simp [State.splits, h.rmwAtomic]
  refine ⟨_, step_of_unsplit h.legal h.schedule hq' hf hw (splitStart_eq_none_of_not_splits hs _), ?_⟩
  rw [afterWord_of_instr (decode_encode _), ← h.out]
  exact h.of_complete (surroundingsKept_after ..) (rsp_after ..) hq
    (out_after_writePin (s := { s with schedule := rest }) ⟨h.port_lt, hpin⟩ l)

end

/-- Both bits are there after two writes to different pins, in whichever order they are looked at. -/
theorem getLsbD_putBit_putBit (v : Byte) {i j : Byte} (hij : i ≠ j) (li lj : Level) {b : Nat} (hb : b < 8) :
    (putBit (putBit v i.toNat li.toBit) j.toNat lj.toBit).getLsbD b =
      if b = i.toNat then decide (li = .high) else if b = j.toNat then decide (lj = .high) else v.getLsbD b := by
  have hne : j.toNat ≠ i.toNat := fun e => hij (BitVec.eq_of_toNat_eq e.symm)
  rw [putBit_comm v hne, getLsbD_putBit _ _ _ hb, getLsbD_putBit _ _ _ hb, Level.toBit_eq, Level.toBit_eq]

/-- Settles O34, turn by turn: the outer write half puts its bit into the byte it read first; one after the other, and where
nothing splits, the second write starts from the byte the first one left. -/
theorem interleavedPinWritesLoseAnUpdate : Obligations.InterleavedPinWritesLoseAnUpdate := by
  intro s m n port i j li lj hl hr hm hn hmw hnw hp hi hj hij
  refine ⟨fun ha ht => ?inside, fun ha ht => ?oneAfterTheOther, fun ha ht => ?atomic⟩
  case inside =>
    have h : PinRun false port (s.out port.toNat) [m, n] _ s := ⟨hl, ha, hp, rfl, hr, ht⟩
    obtain ⟨s₁, e₁, h⟩ := h.readHalf (Nat.lt_succ_self 1) rfl hm hmw hi
    obtain ⟨s₂, e₂, h⟩ := h.readHalf (Nat.lt_succ_self 1) rfl hn hnw hj
    obtain ⟨s₃, e₃, h⟩ := h.writeHalf rfl rfl
    obtain ⟨s₄, e₄, h⟩ := h.writeHalf rfl rfl
    refine ⟨s₄, ?_, fun b hb => ?_⟩
    · rw [run_succ_of_step e₁, run_succ_of_step e₂, run_succ_of_step e₃, run_succ_of_step e₄]
      rfl
    · rw [h.out, getLsbD_putBit _ _ _ hb, Level.toBit_eq]
  case oneAfterTheOther =>
    have h : PinRun false port (s.out port.toNat) [m, n] _ s := ⟨hl, ha, hp, rfl, hr, ht⟩
    obtain ⟨s₁, e₁, h⟩ := h.readHalf (Nat.lt_succ_self 1) rfl hm hmw hi
    obtain ⟨s₂, e₂, h⟩ := h.writeHalf rfl rfl
    obtain ⟨s₃, e₃, h⟩ := h.readHalf (Nat.lt_succ_self 1) rfl hn hnw hj
    obtain ⟨s₄, e₄, h⟩ := h.writeHalf rfl rfl
    refine ⟨s₄, ?_, fun b hb => ?_⟩
    · rw [run_succ_of_step e₁, run_succ_of_step e₂, run_succ_of_step e₃, run_succ_of_step e₄]
      rfl
    · rw [h.out, getLsbD_putBit_putBit _ hij _ _ hb]
  case atomic =>
    have h : PinRun true port (s.out port.toNat) [m, n] _ s := ⟨hl, ha, hp, rfl, hr, ht⟩
    obtain ⟨s₁, e₁, h⟩ := h.command rfl hm hmw hi
    obtain ⟨s₂, e₂, h⟩ := h.command rfl hn hnw hj
    refine ⟨s₂, ?_, fun b hb => ?_⟩
    · rw [run_succ_of_step e₁, run_succ_of_step e₂]
      rfl
    · rw [h.out, getLsbD_putBit_putBit _ hij _ _ hb]

end Sys2Proof.Machine
end

section
/-! The family of derived statements, on every step: the bookkeeping that each step keeps, and the work that each step takes off. -/

namespace Sys2Proof.Machine

/-! ### What belongs to the whole run -/

/-- What no step of a run changes: the arguments, the number of ports and the command lists. -/
structure RunKept (s t : State) : Prop where
  numPorts : t.numPorts = s.numPorts
  pinModel : t.pinModel = s.pinModel
  rmwAtomic : t.rmwAtomic = s.rmwAtomic
  programs : t.requesters.map Requester.program = s.requesters.map Requester.program

theorem RunKept.refl (s : State) : RunKept s s := ⟨rfl, rfl, rfl, rfl⟩

theorem RunKept.trans {s t u : State} (h : RunKept s t) (h' : RunKept t u) : RunKept s u :=
  ⟨h'.numPorts.trans h.numPorts, h'.pinModel.trans h.pinModel, h'.rmwAtomic.trans h.rmwAtomic, h'.programs.trans h.programs⟩

section
variable {s t : State} (h : RunKept s t)
include h

theorem RunKept.length_requesters : t.requesters.length = s.requesters.length := by
  simpa using congrArg List.length h.programs

theorem RunKept.legal : t.legal = s.legal := legal_congr h.numPorts h.length_requesters

theorem RunKept.splits : t.splits = s.splits := splits_congr h.rmwAtomic h.length_requesters

/-- The soundness of a requester depends on the state through what belongs to the whole run. -/
theorem RunKept.requesterSound {q : Requester} (hq : RequesterSound s q) : RequesterSound t q where
  index_le := hq.index_le
  responses_length := hq.responses_length
  responses_fit := hq.responses_fit
  inFlight f hf := by
    obtain ⟨hsplits, hvalid, hword⟩ := hq.inFlight f hf
    rw [validPortPin_iff] at hvalid
    exact ⟨h.splits.trans hsplits, (validPortPin_iff ..).mpr (by rwa [h.numPorts]), hword⟩

theorem RunKept.sound_of_requesters_eq (hs : s.Sound) (hr : t.requesters = s.requesters) : t.Sound :=
  ⟨h.legal.trans hs.legal, fun q hq => h.requesterSound (hs.requesters q (hr ▸ hq))⟩

theorem RunKept.sound_of_requesters_set (hs : s.Sound) {r : Nat} {q : Requester}
    (hr : t.requesters = s.requesters.set r q) (hq : RequesterSound s q) : t.Sound := by
  refine ⟨h.legal.trans hs.legal, fun q' hq' => h.requesterSound ?_⟩
  rw [hr] at hq'
  rcases List.mem_or_eq_of_mem_set hq' with hmem | rfl
  · exact hs.requesters q' hmem
  · exact hq

end

/-! ### The response of a command fits it -/

theorem responseFits_responseOf (i : Instr) (s : State) : responseFits (.instr i) (responseOf i s) = true := by
  cases i with
  | readPin port pin => rcases pinResponse_eq_zero_or_one s port pin with h | h <;> rw [responseOf, h] <;> rfl
  | readPort port =>
    obtain ⟨v, h⟩ := portResponse_eq_byte s port
    rw [responseOf, h, responseFits]
  | setupPinDirection _ _ _ | setupPortDirection _ _ | writePin _ _ _ | writePort _ _ => rfl

theorem responseFits_afterWord (cmd : CmdWord) (s : State) : responseFits (decode cmd) (afterWord cmd s).rsp = true := by
  cases hd : decode cmd with
  | instr i =>
    rw [rsp_afterWord_of_instr hd]
    exact responseFits_responseOf i s
  | reserved op =>
    rw [afterWord_of_reserved hd]
    rfl

theorem responseFits_none_of_bitTarget {i : Instr} {target : StoredKind × Byte × Byte × Bool}
    (hb : bitTarget i = some target) : responseFits (.instr i) .none = true := by
  cases i <;> cases hb <;> rfl

/-! ### The bookkeeping of one requester -/

theorem index_lt_of_nextWord {q : Requester} {cmd : CmdWord} (hw : q.nextWord = some cmd) : q.index < q.program.length :=
  (List.getElem?_eq_some_iff.mp hw).1

theorem requesterSound_fresh (s : State) (program : List CmdWord) : RequesterSound s (Requester.fresh program) :=
  ⟨Nat.zero_le _, rfl, fun _ _ _ _ hr => (by cases hr), fun _ hf => (by cases hf)⟩

theorem RequesterSound.completed {s : State} {q : Requester} {cmd : CmdWord} {x : Response} (h : RequesterSound s q)
    (hw : q.nextWord = some cmd) (hx : responseFits (decode cmd) x = true) : RequesterSound s (q.completed x) where
  index_le := index_lt_of_nextWord hw
  responses_length := by simp [Requester.completed, h.responses_length]
  responses_fit j cmd' x' hcmd hrsp := by
    rcases Nat.lt_trichotomy j q.responses.length with hj | rfl | hj
    · exact h.responses_fit j cmd' x' hcmd ((List.getElem?_append_left hj).symm.trans hrsp)
    · rw [h.responses_length] at hcmd
      cases hw.symm.trans hcmd
      cases (List.getElem?_concat_length ..).symm.trans hrsp
      exact hx
    · have hlen : (q.completed x).responses.length = q.responses.length + 1 := List.length_append
      have hlt := (List.getElem?_eq_some_iff.mp hrsp).1
      omega
  inFlight _ hf := by cases hf

theorem RequesterSound.held {s : State} {q : Requester} {f : InFlight} (h : RequesterSound s q)
    (hf : InFlightSound s q f) : RequesterSound s { q with inFlight := some f } where
  index_le := h.index_le
  responses_length := h.responses_length
  responses_fit := h.responses_fit
  inFlight f' hf' := by
    cases hf'
    exact ⟨hf.splits, hf.valid, hf.word⟩

/-- A read half that starts holds the operation of the word it starts with. -/
theorem inFlightSound_of_splitStart {s : State} {q : Requester} {cmd : CmdWord} {f : InFlight}
    (hw : q.nextWord = some cmd) (h : s.splitStart cmd = some f) : InFlightSound s q f := by
  obtain ⟨i, hd, hb, hs, hv, -⟩ := splitStart_eq_some h
  exact ⟨hs, hv, cmd, i, hw, hd, hb⟩

/-! ### The work of one requester -/

theorem work_completed_lt {q : Requester} {cmd : CmdWord} (hw : q.nextWord = some cmd) (x : Response) :
    (q.completed x).work < q.work := by
  have hlt := index_lt_of_nextWord hw
  simp only [Requester.work, Requester.completed, Option.isSome_none, Bool.false_eq_true, if_false]
  split <;> omega

theorem work_held_lt {q : Requester} {cmd : CmdWord} (hf : q.inFlight = none) (hw : q.nextWord = some cmd)
    (f : InFlight) : ({ q with inFlight := some f } : Requester).work < q.work := by
  have hlt := index_lt_of_nextWord hw
  simp only [Requester.work, hf, Option.isSome_none, Option.isSome_some, Bool.false_eq_true, if_false, if_true]
  omega

/-- A sound requester has work left exactly while it has not finished its list. -/
theorem work_eq_zero_iff {s : State} {q : Requester} (h : RequesterSound s q) : q.work = 0 ↔ q.busy = false := by
  have hle := h.index_le
  cases hw : q.nextWord with
  | some cmd =>
    have hlt := index_lt_of_nextWord hw
    have hpos : q.work ≠ 0 := by
      simp only [Requester.work]
      split <;> omega
    exact iff_of_false hpos (by simp [Requester.busy, hw])
  | none =>
    have hf : q.inFlight = none := by
      cases hf : q.inFlight with
      | none => rfl
      | some f =>
        obtain ⟨-, -, cmd, -, hcmd, -⟩ := h.inFlight f hf
        cases hw.symm.trans hcmd
    have hge : q.program.length ≤ q.index := List.getElem?_eq_none_iff.mp hw
    have hzero : q.work = 0 := by
      simp only [Requester.work]
      omega
    exact iff_of_true hzero (by simp [Requester.busy, hw, hf])

/-! ### One turn -/

/-- Requester `r` goes on in its list: it alone changes, soundly, and has less work left. -/
structure RequesterMoves (r : Nat) (s t : State) : Prop where
  kept : RunKept s t
  schedule : t.schedule = s.schedule
  moved : ∃ q q', s.requesters[r]? = some q ∧ t.requesters = s.requesters.set r q' ∧
    RequesterSound s q' ∧ q'.work < q.work

theorem programs_set {l : List Requester} {r : Nat} {q q' : Requester} (hq : l[r]? = some q) (hp : q'.program = q.program) :
    (l.set r q').map Requester.program = l.map Requester.program := by
  obtain ⟨hr, rfl⟩ := List.getElem?_eq_some_iff.mp hq
  rw [List.map_set, hp, ← List.map_set, List.set_getElem_self]

theorem requesterMoves_of_complete {r : Nat} {s u : State} {q : Requester} {cmd : CmdWord} (hs : RequesterSound s q)
    (hkept : SurroundingsKept s u) (hq : s.requesters[r]? = some q) (hw : q.nextWord = some cmd)
    (hx : responseFits (decode cmd) u.rsp = true) : RequesterMoves r s (u.complete r) := by
  have hset : (u.complete r).requesters = s.requesters.set r (q.completed u.rsp) := by
    rw [← hkept.requesters]
    exact requesters_complete_eq_set (by rwa [hkept.requesters])
  exact ⟨⟨hkept.numPorts, hkept.pinModel, hkept.rmwAtomic, by rw [hset]; exact programs_set hq rfl⟩, hkept.schedule,
    q, q.completed u.rsp, hq, hset, hs.completed hw hx, work_completed_lt hw _⟩

/-- A requester's turn in a sound state does nothing, where it has nothing left to do, or takes the requester on. -/
theorem requesterTurn_moves {r : Nat} {s t : State} (hs : s.Sound) (h : requesterTurn r s = .next t) :
    (r ∉ s.busyRequesters ∧ t = s) ∨ RequesterMoves r s t := by
  have idle (hidle : ∀ q, s.requesters[r]? = some q → q.busy = false) : r ∉ s.busyRequesters := by
    rw [mem_busyRequesters]
    rintro ⟨q, hq, hb⟩
    rw [hidle q hq] at hb
    cases hb
  rcases requesterTurn_cases r s with ⟨hnone, e⟩ | ⟨q, hq, hturn⟩
  · cases e.symm.trans h
    exact .inl ⟨idle fun q hq => (by cases hnone.symm.trans hq), rfl⟩
  · have hqs : RequesterSound s q := hs.requesters q (List.mem_of_getElem? hq)
    rcases hturn with ⟨f, hf, e⟩ | ⟨hf, hw, e⟩ | ⟨cmd, f, hf, hw, hstart, e⟩ | ⟨cmd, hf, hw, hstart, e⟩
    all_goals cases e.symm.trans h
    · obtain ⟨-, -, cmd, i, hw, hd, hb⟩ := hqs.inFlight f hf
      refine .inr (requesterMoves_of_complete hqs (surroundingsKept_finishBitWrite s f) hq hw ?_)
      rw [hd]
      exact responseFits_none_of_bitTarget hb
    · refine .inl ⟨idle fun q' hq' => ?_, rfl⟩
      cases hq.symm.trans hq'
      simp [Requester.busy, hf, hw]
    · have hset : (s.hold r f).requesters = s.requesters.set r { q with inFlight := some f } := modify_eq_set hq _
      exact .inr ⟨⟨rfl, rfl, rfl, by rw [hset]; exact programs_set hq rfl⟩, rfl, q, _, hq, hset,
        hqs.held (inFlightSound_of_splitStart hw hstart), work_held_lt hf hw f⟩
    · exact .inr (requesterMoves_of_complete hqs (surroundingsKept_afterWord cmd s) hq hw (responseFits_afterWord cmd s))

theorem RequesterMoves.sound {r : Nat} {s t : State} (h : RequesterMoves r s t) (hs : s.Sound) : t.Sound := by
  obtain ⟨q, q', -, hset, hq', -⟩ := h.moved
  exact h.kept.sound_of_requesters_set hs hset hq'

/-- Replacing one requester by one with less work leaves less work in all. -/
theorem sum_work_set_lt {l : List Requester} {r : Nat} {q q' : Requester} (hq : l[r]? = some q) (h : q'.work < q.work) :
    ((l.set r q').map Requester.work).sum < (l.map Requester.work).sum := by
  induction l generalizing r with
  | nil => cases hq
  | cons x l ih =>
    cases r with
    | zero =>
      cases hq
      simpa using h
    | succ r => simpa using ih hq

theorem RequesterMoves.work_lt {r : Nat} {s t : State} (h : RequesterMoves r s t) : t.work < s.work := by
  obtain ⟨q, q', hq, hset, -, hlt⟩ := h.moved
  rw [State.work, hset]
  exact sum_work_set_lt hq hlt

/-- Every turn in a sound state keeps the bookkeeping and the turns to come, and adds no work. -/
theorem takeTurn_keeps {turn : Turn} {s t : State} (hs : s.Sound) (h : takeTurn turn s = .next t) :
    t.Sound ∧ RunKept s t ∧ t.schedule = s.schedule ∧ t.work ≤ s.work := by
  cases turn with
  | requester r =>
    rcases requesterTurn_moves hs h with ⟨-, rfl⟩ | hmoves
    · exact ⟨hs, .refl t, rfl, Nat.le_refl _⟩
    · exact ⟨hmoves.sound hs, hmoves.kept, hmoves.schedule, hmoves.work_lt.le⟩
  | environment p e =>
    cases h
    have hkept : RunKept s (s.setExt p e) := ⟨numPorts_setExt .., rfl, rfl, rfl⟩
    exact ⟨hkept.sound_of_requesters_eq hs rfl, hkept, rfl, Nat.le_refl _⟩
  | directAccess p k w => cases h

/-! ### Every step -/

theorem runKept_schedule (s : State) (ts : List Turn) : RunKept s { s with schedule := ts } := ⟨rfl, rfl, rfl, rfl⟩

theorem sound_schedule {s : State} (hs : s.Sound) (ts : List Turn) : ({ s with schedule := ts } : State).Sound :=
  (runKept_schedule s ts).sound_of_requesters_eq hs rfl

/-- Every step of a sound state keeps the bookkeeping, takes its turn off the schedule, and adds no work. -/
theorem step_keeps {s t : State} (hs : s.Sound) (h : step s = .next t) :
    t.Sound ∧ RunKept s t ∧ t.schedule = s.schedule.tail ∧ t.work ≤ s.work := by
  rcases step_next_cases h with ⟨-, rfl⟩ | ⟨turn, -, hturn⟩
  · exact ⟨sound_schedule hs _, runKept_schedule s _, rfl, Nat.le_refl _⟩
  · obtain ⟨hsound, hkept, hschedule, hwork⟩ := takeTurn_keeps (sound_schedule hs _) hturn
    exact ⟨hsound, (runKept_schedule s _).trans hkept, hschedule, hwork⟩

/-- Settles O41, by what every step keeps. -/
theorem stepKeepsSoundness : Obligations.StepKeepsSoundness := by
  intro s t hs h
  obtain ⟨hsound, hkept, -, -⟩ := step_keeps hs h
  exact ⟨hsound, hkept.numPorts, hkept.pinModel, hkept.rmwAtomic, hkept.programs⟩

/-- Settles O40: the parameters are in range, and every requester is at the start of an empty list. -/
theorem powerOnIsSound : Obligations.PowerOnIsSound := by
  have sound (c : Config) (hlow : 1 ≤ c.numPorts) (hhigh : c.numPorts ≤ 256) (hreq : 1 ≤ c.nReq) :
      (State.powerOn c).Sound := by
    have hlegal : (State.powerOn c).legal = true := by
      rw [legal_iff, numPorts_powerOn]
      exact ⟨hlow, hhigh, by simpa [State.powerOn]⟩
    refine ⟨hlegal, fun q hq => ?_⟩
    rw [List.eq_of_mem_replicate hq]
    exact requesterSound_fresh _ []
  exact ⟨sound, sound Config.reference (by decide) (by decide) (by decide)⟩

/-! ### Every run ends -/

theorem ended_iff (s : State) : s.ended = true ↔ s.busyRequesters = [] := List.isEmpty_iff

/-- A run of sound bookkeeping has ended exactly when no requester has work left. -/
theorem work_eq_zero_iff_ended {s : State} (hs : s.Sound) : s.work = 0 ↔ s.ended = true := by
  rw [ended_iff, List.eq_nil_iff_forall_not_mem, State.work, List.sum_eq_zero_iff]
  simp only [mem_busyRequesters, List.mem_map]
  constructor
  · rintro h r ⟨q, hq, hb⟩
    have hmem := List.mem_of_getElem? hq
    rw [(work_eq_zero_iff (hs.requesters q hmem)).mp (h _ ⟨q, hmem, rfl⟩)] at hb
    cases hb
  · rintro h _ ⟨q, hq, rfl⟩
    obtain ⟨r, hr⟩ := List.mem_iff_getElem?.mp hq
    rw [work_eq_zero_iff (hs.requesters q hq), Bool.eq_false_iff]
    exact fun hb => h r ⟨q, hr, hb⟩

/-- Where the schedule says nothing, a step takes some work off, or there is none. -/
theorem work_lt_of_no_schedule {s t : State} (hs : s.Sound) (ht : s.schedule = []) (h : step s = .next t) :
    t.work < s.work ∨ s.work = 0 := by
  rw [step_of_legal hs.legal, advance_of_no_schedule ht] at h
  rcases freeTurn_cases s with ⟨hbusy, -⟩ | ⟨r, hr, e⟩
  · exact .inr ((work_eq_zero_iff_ended hs).mpr ((ended_iff s).mpr hbusy))
  · rw [e] at h
    rcases requesterTurn_moves hs h with ⟨hidle, -⟩ | hmoves
    · exact absurd hr hidle
    · exact .inl hmoves.work_lt

/-- Every step takes one turn off the schedule or, where it is empty, some work off, until there is neither. -/
theorem step_measure {s t : State} (hs : s.Sound) (h : step s = .next t) :
    t.schedule.length + t.work ≤ s.schedule.length + s.work - 1 := by
  obtain ⟨-, -, hschedule, hwork⟩ := step_keeps hs h
  rw [hschedule, List.length_tail]
  cases ht : s.schedule with
  | nil =>
    have hlt := work_lt_of_no_schedule hs ht h
    simp only [List.length_nil]
    omega
  | cons turn rest =>
    simp only [List.length_cons]
    omega

/-- A run of as many steps as there are turns scheduled and work left goes through them all. -/
theorem run_ends (n : Nat) {s : State} (hs : s.Sound) (hord : ∀ t ∈ s.schedule, t.ordinary = true)
    (hn : s.schedule.length + s.work ≤ n) : ∃ t : State, Host.Core.run Sys2Proof.core n s = .next t ∧
      t.Sound ∧ RunKept s t ∧ t.schedule = [] ∧ t.work = 0 := by
  induction n generalizing s with
  | zero => exact ⟨s, rfl, hs, .refl s, List.length_eq_zero_iff.mp (by omega), by omega⟩
  | succ n ih =>
    obtain ⟨t, ht⟩ := theBlockNeverFaultsOrSticks.2 s hs.legal fun t ht => hord t (List.mem_of_head? ht)
    obtain ⟨hsound, hkept, hschedule, -⟩ := step_keeps hs ht
    have hmeasure := step_measure hs ht
    obtain ⟨u, hu, husound, hukept, huschedule, huwork⟩ :=
      ih hsound (fun x hx => hord x (List.mem_of_mem_tail (hschedule ▸ hx))) (by omega)
    exact ⟨u, (run_succ_of_step ht n).trans hu, husound, hkept.trans hukept, huschedule, huwork⟩

/-- A sound requester with no work left has done its whole list. -/
theorem finished_of_work_eq_zero {s : State} {q : Requester} (h : RequesterSound s q) (hw : q.work = 0) :
    q.index = q.program.length ∧ q.responses.length = q.program.length ∧ q.inFlight = none := by
  have hbusy := (work_eq_zero_iff h).mp hw
  rw [Requester.busy, Bool.or_eq_false_iff, Option.isSome_eq_false_iff, Option.isSome_eq_false_iff, Option.isNone_iff_eq_none,
    Option.isNone_iff_eq_none] at hbusy
  have hindex : q.index = q.program.length := Nat.le_antisymm h.index_le (List.getElem?_eq_none_iff.mp hbusy.2)
  exact ⟨hindex, h.responses_length.trans hindex, hbusy.1⟩

/-- Settles O42: a run as long as turns and work go has none left, and a sound requester without work has done its list. -/
theorem everyRunOfFiniteListsEnds : Obligations.EveryRunOfFiniteListsEnds := by
  intro s hs hord
  obtain ⟨t, hrun, hsound, hkept, hschedule, hwork⟩ := run_ends _ hs hord (Nat.le_refl _)
  refine ⟨t, hrun, (work_eq_zero_iff_ended hsound).mp hwork, hschedule, hkept.programs, fun q hq => ?_⟩
  exact finished_of_work_eq_zero (hsound.requesters q hq) (List.sum_eq_zero_iff.mp hwork _ (List.mem_map_of_mem hq))

end Sys2Proof.Machine
end
